-- ==== Sys2Proof/Word.lean ====
section
/-!
DEFINITION. The widths of the CHIP-8 core: bytes, 16-bit words, and the fields of an instruction word
(00_scope.md R5 to R7, 30_encoding.md R76 to R79). All values are unsigned.
-/
namespace Sys2Proof

/-- An 8-bit value: a general register, a timer, a byte of memory, an immediate `nn`. -/
abbrev Byte := BitVec 8

/-- A 16-bit value: an instruction word, `pc`, `I`, `SP`, a call-stack entry. -/
abbrev Word := BitVec 16

/-- A register number, the fields `x` and `y` (R79): every value 0..15 names a register. -/
abbrev RegNum := BitVec 4

/-- A 4-bit immediate (`n`), an ignored low nibble, a key number or a hexadecimal digit. -/
abbrev Nibble := BitVec 4

/-- The 12-bit immediate `nnn` (R78). -/
abbrev Addr12 := BitVec 12

/-- Register number 15, VF: also the flag register (10_state.md R21). -/
def VF : RegNum := 15

end Sys2Proof
end

