-- ==== Sys2Proof/Config.lean ====
section
/-!
DEFINITION. What is fixed for one machine: the parameters of 00_scope.md R5, the operations a driver can issue
(10_state.md R34 to R40), and what the spec leaves free.
-/
namespace Sys2Proof

/-- The parameter KEYWAIT_MODE (R5, 47_keypad.md R157): what `LD Vx, K` does. -/
inductive KeywaitMode where
  /-- `LD Vx, K` raises UnimplementedOpcode. The spec's default. -/
  | unimplemented
  /-- `LD Vx, K` waits for a key. -/
  | wait
  deriving DecidableEq, Repr

namespace Machine

/-- The operations of the core, each atomic, in any order the driver chooses (10_state.md R34). -/
inductive HostOp where
  /-- RESET: 70_reset_and_hazards.md R210. -/
  | reset
  /-- LOAD(bytes): 70_reset_and_hazards.md R213. -/
  | load (bytes : List Byte)
  /-- STEP(rnd): 10_state.md R35, 30_encoding.md R80. -/
  | step (rnd : Byte)
  /-- TICK: 60_exceptions.md R190. -/
  | tick
  /-- KEYWRITE(k, b): 10_state.md R37. Only the 16 key numbers can be presented. -/
  | keyWrite (k : Nibble) (b : Bool)
  /-- FBREAD: 10_state.md R38. -/
  | fbRead
  /-- TIMERREAD: 10_state.md R39. -/
  | timerRead
  deriving DecidableEq, Repr, Inhabited

/-- What the driver does once the operations it has lined up are performed (10_state.md R34: "any finite or infinite
interleaving is a legal run"; log 5). -/
inductive Driver where
  /-- It issues STEPs and nothing else. -/
  | stepping
  /-- It goes on with an endless order of operations of its own, of which it has issued `issued`. -/
  | free (issued : Nat)
  deriving DecidableEq, Repr

end Machine

namespace Config

/-- MEM_SIZE: addresses 0x000..0xFFF exist (20_memory.md R50). -/
def memSize : Nat := 4096

/-- PROG_BASE: where LOAD puts a program and where `pc` starts (R5, 20_memory.md R60). -/
def progBase : Nat := 0x200

/-- FONT_BASE (R5, 20_memory.md R60). -/
def fontBase : Nat := 0x000

/-- FONT_STRIDE: bytes per digit sprite (R5, 49_font_bcd_block.md R165). -/
def fontStride : Nat := 5

/-- FB_W: columns of the framebuffer (R5). -/
def fbWidth : Nat := 64

/-- FB_H: rows of the framebuffer (R5). -/
def fbHeight : Nat := 32

/-- KEYWAIT_MODE after reset: the spec's default (R5, log 4). -/
def keywaitDefault : KeywaitMode := .unimplemented

/-- FREE VALUE: the byte the random source gives at its `k`-th free draw. The spec puts no law on it: "every one of
the 256 values is possible at every `RND`" (45_random.md R141, log 3). No body, so no proof can see a value. -/
opaque randomByte : Nat → Byte

/-- FREE VALUE: the `k`-th operation of a driver that goes on endlessly in an order of its own. The spec puts no law on
that order (10_state.md R34, log 5). No body, so a claim about a free driver holds for every infinite interleaving. -/
opaque driverOp : Nat → Machine.HostOp

end Config
end Sys2Proof
end

