-- ==== Sys2Proof/Syntax.lean ====
section
/-!
DEFINITION. The 35 instructions of spec/opcode_table.json (30_encoding.md R88), one constructor a row, with every operand
field of the row. Fields that the core ignores (R91) are kept as operands, so that a word and its instruction hold the
same bits (log 18).
-/
namespace Sys2Proof

/-- An instruction of the core; the comment of each constructor gives its syntax, its word and its rule. -/
inductive Instr where
  /-- `CLS`, `00E0`: 46_draw_and_clear.md R146. -/
  | cls
  /-- `RET`, `00EE`: 40_control_transfer.md R102. -/
  | ret
  /-- `SYS nnn`, `0nnn`, `nnn` neither 0x0E0 nor 0x0EE: 40_control_transfer.md R104. -/
  | sys (nnn : Addr12)
  /-- `JP nnn`, `1nnn`: 40_control_transfer.md R100. -/
  | jp (nnn : Addr12)
  /-- `CALL nnn`, `2nnn`: 40_control_transfer.md R101. -/
  | call (nnn : Addr12)
  /-- `SE Vx, nn`, `3xnn`: 41_skip.md R110. -/
  | seImm (x : RegNum) (nn : Byte)
  /-- `SNE Vx, nn`, `4xnn`: 41_skip.md R111. -/
  | sneImm (x : RegNum) (nn : Byte)
  /-- `SE Vx, Vy`, `5xyz`, `z` ignored: 41_skip.md R112. -/
  | seReg (x y : RegNum) (z : Nibble)
  /-- `LD Vx, nn`, `6xnn`: 42_immediate.md R115. -/
  | ldImm (x : RegNum) (nn : Byte)
  /-- `ADD Vx, nn`, `7xnn`: 42_immediate.md R116. -/
  | addImm (x : RegNum) (nn : Byte)
  /-- `LD Vx, Vy`, `8xy0`: 43_alu.md R121. -/
  | ldReg (x y : RegNum)
  /-- `OR Vx, Vy`, `8xy1`: 43_alu.md R122. -/
  | orReg (x y : RegNum)
  /-- `AND Vx, Vy`, `8xy2`: 43_alu.md R123. -/
  | andReg (x y : RegNum)
  /-- `XOR Vx, Vy`, `8xy3`: 43_alu.md R124. -/
  | xorReg (x y : RegNum)
  /-- `ADD Vx, Vy`, `8xy4`: 43_alu.md R125. -/
  | addReg (x y : RegNum)
  /-- `SUB Vx, Vy`, `8xy5`: 43_alu.md R126. -/
  | sub (x y : RegNum)
  /-- `SHR Vx`, `8xy6`, `y` ignored: 43_alu.md R127. -/
  | shr (x y : RegNum)
  /-- `SUBN Vx, Vy`, `8xy7`: 43_alu.md R128. -/
  | subn (x y : RegNum)
  /-- `SHL Vx`, `8xyE`, `y` ignored: 43_alu.md R129. -/
  | shl (x y : RegNum)
  /-- `SNE Vx, Vy`, `9xyz`, `z` ignored: 41_skip.md R113. -/
  | sneReg (x y : RegNum) (z : Nibble)
  /-- `LD I, nnn`, `Annn`: 44_index.md R135. -/
  | ldI (nnn : Addr12)
  /-- `JP V0, nnn`, `Bnnn`: 40_control_transfer.md R103. -/
  | jpV0 (nnn : Addr12)
  /-- `RND Vx, nn`, `Cxnn`: 45_random.md R140. -/
  | rnd (x : RegNum) (nn : Byte)
  /-- `DRW Vx, Vy, n`, `Dxyn`: 46_draw_and_clear.md R145. -/
  | drw (x y : RegNum) (n : Nibble)
  /-- `SKP Vx`, `Ex9E`: 47_keypad.md R155. -/
  | skp (x : RegNum)
  /-- `SKNP Vx`, `ExA1`: 47_keypad.md R156. -/
  | sknp (x : RegNum)
  /-- `LD Vx, DT`, `Fx07`: 48_timers.md R160. -/
  | ldVxDt (x : RegNum)
  /-- `LD Vx, K`, `Fx0A`: 47_keypad.md R157. -/
  | ldVxK (x : RegNum)
  /-- `LD DT, Vx`, `Fx15`: 48_timers.md R161. -/
  | ldDtVx (x : RegNum)
  /-- `LD ST, Vx`, `Fx18`: 48_timers.md R162. -/
  | ldStVx (x : RegNum)
  /-- `ADD I, Vx`, `Fx1E`: 44_index.md R136. -/
  | addI (x : RegNum)
  /-- `LD F, Vx`, `Fx29`: 49_font_bcd_block.md R165. -/
  | ldF (x : RegNum)
  /-- `LD B, Vx`, `Fx33`: 49_font_bcd_block.md R166. -/
  | ldB (x : RegNum)
  /-- `LD [I], Vx`, `Fx55`: 49_font_bcd_block.md R167. -/
  | stRegs (x : RegNum)
  /-- `LD Vx, [I]`, `Fx65`: 49_font_bcd_block.md R168. -/
  | ldRegs (x : RegNum)
  deriving DecidableEq, Repr

end Sys2Proof
end

