-- ==== Sys2Proof/Decode.lean ====
section
/-!
DEFINITION. Decode, encode and assembler text of instruction words (30_encoding.md R75 to R96). The opcode numbers are
the customary table, as the spec gives it (R88, log 11).
-/
namespace Sys2Proof

/-- The opcode tags of R88, the closed enumeration the decoder answers with (R82), spelled as opcode_table.json spells
them. -/
inductive OpcodeTag where
  | CLS | RET | SYS | JP | CALL | SE_IMM | SNE_IMM | SE_REG | LD_IMM | ADD_IMM
  | LD_REG | OR | AND | XOR | ADD_REG | SUB | SHR | SUBN | SHL | SNE_REG
  | LD_I | JP_V0 | RND | DRW | SKP | SKNP | LD_VX_DT | LD_VX_K | LD_DT_VX | LD_ST_VX
  | ADD_I | LD_F | LD_B | ST_REGS | LD_REGS
  deriving DecidableEq, Repr

/-- Why bytes are no instruction. -/
inductive DecodeError where
  /-- One of the 9808 illegal words (R90), with the raw word (R83). -/
  | unknownOpcode (word : Word)
  /-- Fewer than the two bytes every instruction has (R75). The core never meets this: its fetch reads two bytes. -/
  | truncated (length : Nat)
  deriving DecidableEq, Repr

/-- Field `op`, bits 15..12 (R77). -/
def opField (w : Word) : Nibble := w.extractLsb' 12 4
/-- Field `x`, bits 11..8 (R77). -/
def xField (w : Word) : RegNum := w.extractLsb' 8 4
/-- Field `y`, bits 7..4 (R77). -/
def yField (w : Word) : RegNum := w.extractLsb' 4 4
/-- Field `n`, bits 3..0 (R77). -/
def nField (w : Word) : Nibble := w.extractLsb' 0 4
/-- Field `nn`, bits 7..0 (R77). -/
def nnField (w : Word) : Byte := w.extractLsb' 0 8
/-- Field `nnn`, bits 11..0 (R77). -/
def nnnField (w : Word) : Addr12 := w.extractLsb' 0 12

/-- Family 0x0: CLS, RET, and SYS for every other code; never fails (R85). -/
def decodeFamily0 (w : Word) : Instr :=
  if nnnField w = 0x0E0 then .cls
  else if nnnField w = 0x0EE then .ret
  else .sys (nnnField w)

/-- Family 0x8, by the low nibble (R86). -/
def decodeFamily8 (w : Word) : Option Instr :=
  match nField w with
  | 0x0#4 => some (.ldReg (xField w) (yField w))
  | 0x1#4 => some (.orReg (xField w) (yField w))
  | 0x2#4 => some (.andReg (xField w) (yField w))
  | 0x3#4 => some (.xorReg (xField w) (yField w))
  | 0x4#4 => some (.addReg (xField w) (yField w))
  | 0x5#4 => some (.sub (xField w) (yField w))
  | 0x6#4 => some (.shr (xField w) (yField w))
  | 0x7#4 => some (.subn (xField w) (yField w))
  | 0xE#4 => some (.shl (xField w) (yField w))
  | _ => none

/-- Family 0xE, by the low byte (R87). -/
def decodeFamilyE (w : Word) : Option Instr :=
  match nnField w with
  | 0x9E#8 => some (.skp (xField w))
  | 0xA1#8 => some (.sknp (xField w))
  | _ => none

/-- Family 0xF, by the low byte (R87). -/
def decodeFamilyF (w : Word) : Option Instr :=
  match nnField w with
  | 0x07#8 => some (.ldVxDt (xField w))
  | 0x0A#8 => some (.ldVxK (xField w))
  | 0x15#8 => some (.ldDtVx (xField w))
  | 0x18#8 => some (.ldStVx (xField w))
  | 0x1E#8 => some (.addI (xField w))
  | 0x29#8 => some (.ldF (xField w))
  | 0x33#8 => some (.ldB (xField w))
  | 0x55#8 => some (.stRegs (xField w))
  | 0x65#8 => some (.ldRegs (xField w))
  | _ => none

/-- R82: the instruction a word stands for; `none` for an illegal word. -/
def decodeWord? (w : Word) : Option Instr :=
  match opField w with
  | 0x0#4 => some (decodeFamily0 w)
  | 0x1#4 => some (.jp (nnnField w))
  | 0x2#4 => some (.call (nnnField w))
  | 0x3#4 => some (.seImm (xField w) (nnField w))
  | 0x4#4 => some (.sneImm (xField w) (nnField w))
  | 0x5#4 => some (.seReg (xField w) (yField w) (nField w))
  | 0x6#4 => some (.ldImm (xField w) (nnField w))
  | 0x7#4 => some (.addImm (xField w) (nnField w))
  | 0x8#4 => decodeFamily8 w
  | 0x9#4 => some (.sneReg (xField w) (yField w) (nField w))
  | 0xA#4 => some (.ldI (nnnField w))
  | 0xB#4 => some (.jpV0 (nnnField w))
  | 0xC#4 => some (.rnd (xField w) (nnField w))
  | 0xD#4 => some (.drw (xField w) (yField w) (nField w))
  | 0xE#4 => decodeFamilyE w
  | _ => decodeFamilyF w

/-- R82, R83: Decode of a word, rejecting an illegal one by name with the raw word. -/
def decodeWord (w : Word) : Except DecodeError Instr :=
  match decodeWord? w with
  | some i => .ok i
  | none => .error (.unknownOpcode w)

/-- Bytes to word, big-endian (20_memory.md R53): the first byte is bits 15..8. -/
def wordOfBytes (hi lo : Byte) : Word := hi ++ lo

/-- Decode of a byte list: the instruction at its head and the bytes after it (R75: two bytes each). -/
def decode : List Byte → Except DecodeError (Instr × List Byte)
  | hi :: lo :: rest =>
    match decodeWord (wordOfBytes hi lo) with
    | .ok i => .ok (i, rest)
    | .error e => .error e
  | short => .error (.truncated short.length)

/-- The two bytes of a word as the hardware stores them: high byte first (20_memory.md R53). -/
def bytesOfWord (w : Word) : List Byte := [w.extractLsb' 8 8, w.extractLsb' 0 8]

/-- The instruction the decoder reads from the low `nbits` bits of `w`, numbered as opcode_table.json numbers them
(bit 15 the most significant bit of the first byte). -/
def decodeTableWord (nbits w : Nat) : Option Instr :=
  match decode (bytesOfWord (BitVec.ofNat 16 (w % 2 ^ nbits))) with
  | .ok (i, _) => some i
  | .error _ => none

/-! ### Encoding, from the formats of R76 and the numbers of R88 -/

/-- Format NNN: op, nnn. -/
def formatNNN (op : Nibble) (nnn : Addr12) : Word := op ++ nnn
/-- Format XNN (and XSS, with the sub-code as `nn`): op, x, nn. -/
def formatXNN (op : Nibble) (x : RegNum) (nn : Byte) : Word := op ++ (x ++ nn)
/-- Formats XYS and XYN: op, x, y, low nibble. -/
def formatXYN (op : Nibble) (x y : RegNum) (n : Nibble) : Word := op ++ (x ++ (y ++ n))

/-- The word of an instruction (R88). -/
def encode : Instr → Word
  | .cls => 0x00E0
  | .ret => 0x00EE
  | .sys nnn => formatNNN 0x0 nnn
  | .jp nnn => formatNNN 0x1 nnn
  | .call nnn => formatNNN 0x2 nnn
  | .seImm x nn => formatXNN 0x3 x nn
  | .sneImm x nn => formatXNN 0x4 x nn
  | .seReg x y z => formatXYN 0x5 x y z
  | .ldImm x nn => formatXNN 0x6 x nn
  | .addImm x nn => formatXNN 0x7 x nn
  | .ldReg x y => formatXYN 0x8 x y 0x0
  | .orReg x y => formatXYN 0x8 x y 0x1
  | .andReg x y => formatXYN 0x8 x y 0x2
  | .xorReg x y => formatXYN 0x8 x y 0x3
  | .addReg x y => formatXYN 0x8 x y 0x4
  | .sub x y => formatXYN 0x8 x y 0x5
  | .shr x y => formatXYN 0x8 x y 0x6
  | .subn x y => formatXYN 0x8 x y 0x7
  | .shl x y => formatXYN 0x8 x y 0xE
  | .sneReg x y z => formatXYN 0x9 x y z
  | .ldI nnn => formatNNN 0xA nnn
  | .jpV0 nnn => formatNNN 0xB nnn
  | .rnd x nn => formatXNN 0xC x nn
  | .drw x y n => formatXYN 0xD x y n
  | .skp x => formatXNN 0xE x 0x9E
  | .sknp x => formatXNN 0xE x 0xA1
  | .ldVxDt x => formatXNN 0xF x 0x07
  | .ldVxK x => formatXNN 0xF x 0x0A
  | .ldDtVx x => formatXNN 0xF x 0x15
  | .ldStVx x => formatXNN 0xF x 0x18
  | .addI x => formatXNN 0xF x 0x1E
  | .ldF x => formatXNN 0xF x 0x29
  | .ldB x => formatXNN 0xF x 0x33
  | .stRegs x => formatXNN 0xF x 0x55
  | .ldRegs x => formatXNN 0xF x 0x65

/-- The two bytes of an instruction, in memory order. -/
def encodeBytes (i : Instr) : List Byte := bytesOfWord (encode i)

/-! ### The opcode table of R88 -/

/-- The tag of an instruction (R88). -/
def Instr.tag : Instr → OpcodeTag
  | .cls => .CLS | .ret => .RET | .sys _ => .SYS | .jp _ => .JP | .call _ => .CALL
  | .seImm _ _ => .SE_IMM | .sneImm _ _ => .SNE_IMM | .seReg _ _ _ => .SE_REG
  | .ldImm _ _ => .LD_IMM | .addImm _ _ => .ADD_IMM
  | .ldReg _ _ => .LD_REG | .orReg _ _ => .OR | .andReg _ _ => .AND | .xorReg _ _ => .XOR
  | .addReg _ _ => .ADD_REG | .sub _ _ => .SUB | .shr _ _ => .SHR | .subn _ _ => .SUBN | .shl _ _ => .SHL
  | .sneReg _ _ _ => .SNE_REG | .ldI _ => .LD_I | .jpV0 _ => .JP_V0 | .rnd _ _ => .RND | .drw _ _ _ => .DRW
  | .skp _ => .SKP | .sknp _ => .SKNP | .ldVxDt _ => .LD_VX_DT | .ldVxK _ => .LD_VX_K
  | .ldDtVx _ => .LD_DT_VX | .ldStVx _ => .LD_ST_VX | .addI _ => .ADD_I | .ldF _ => .LD_F
  | .ldB _ => .LD_B | .stRegs _ => .ST_REGS | .ldRegs _ => .LD_REGS

/-- The `mask` and `match` columns of R88: a word `w` selects the row when `w &&& mask = match`. -/
def OpcodeTag.maskMatch : OpcodeTag → Word × Word
  | .CLS => (0xFFFF, 0x00E0) | .RET => (0xFFFF, 0x00EE) | .SYS => (0xF000, 0x0000)
  | .JP => (0xF000, 0x1000) | .CALL => (0xF000, 0x2000) | .SE_IMM => (0xF000, 0x3000)
  | .SNE_IMM => (0xF000, 0x4000) | .SE_REG => (0xF000, 0x5000) | .LD_IMM => (0xF000, 0x6000)
  | .ADD_IMM => (0xF000, 0x7000) | .LD_REG => (0xF00F, 0x8000) | .OR => (0xF00F, 0x8001)
  | .AND => (0xF00F, 0x8002) | .XOR => (0xF00F, 0x8003) | .ADD_REG => (0xF00F, 0x8004)
  | .SUB => (0xF00F, 0x8005) | .SHR => (0xF00F, 0x8006) | .SUBN => (0xF00F, 0x8007)
  | .SHL => (0xF00F, 0x800E) | .SNE_REG => (0xF000, 0x9000) | .LD_I => (0xF000, 0xA000)
  | .JP_V0 => (0xF000, 0xB000) | .RND => (0xF000, 0xC000) | .DRW => (0xF000, 0xD000)
  | .SKP => (0xF0FF, 0xE09E) | .SKNP => (0xF0FF, 0xE0A1) | .LD_VX_DT => (0xF0FF, 0xF007)
  | .LD_VX_K => (0xF0FF, 0xF00A) | .LD_DT_VX => (0xF0FF, 0xF015) | .LD_ST_VX => (0xF0FF, 0xF018)
  | .ADD_I => (0xF0FF, 0xF01E) | .LD_F => (0xF0FF, 0xF029) | .LD_B => (0xF0FF, 0xF033)
  | .ST_REGS => (0xF0FF, 0xF055) | .LD_REGS => (0xF0FF, 0xF065)

/-- A word selects a row of R88: its masked bits are the row's, and for SYS it is neither CLS nor RET, whose rows take
precedence. -/
def OpcodeTag.selects (t : OpcodeTag) (w : Word) : Bool :=
  (w &&& t.maskMatch.1) == t.maskMatch.2 && (t != .SYS || (w != 0x00E0 && w != 0x00EE))

/-! ### Assembler text of R88, in the spelling of R95 -/

/-- One hexadecimal digit. -/
def hexDigit (d : Nibble) : String :=
  ["0", "1", "2", "3", "4", "5", "6", "7", "8", "9", "A", "B", "C", "D", "E", "F"].getD d.toNat ""

/-- A register name, `V0` to `VF`. -/
def regText (x : RegNum) : String := "V" ++ hexDigit x

/-- A byte immediate, `0x` and two digits. -/
def byteText (nn : Byte) : String := "0x" ++ hexDigit (nn.extractLsb' 4 4) ++ hexDigit (nn.extractLsb' 0 4)

/-- An address immediate, `0x` and three digits. -/
def addrText (nnn : Addr12) : String :=
  "0x" ++ hexDigit (nnn.extractLsb' 8 4) ++ hexDigit (nnn.extractLsb' 4 4) ++ hexDigit (nnn.extractLsb' 0 4)

/-- The assembler line of an instruction: the "syntax" column of R88; ignored fields are not written. -/
def Instr.text : Instr → String
  | .cls => "CLS"
  | .ret => "RET"
  | .sys nnn => "SYS " ++ addrText nnn
  | .jp nnn => "JP " ++ addrText nnn
  | .call nnn => "CALL " ++ addrText nnn
  | .seImm x nn => "SE " ++ regText x ++ ", " ++ byteText nn
  | .sneImm x nn => "SNE " ++ regText x ++ ", " ++ byteText nn
  | .seReg x y _ => "SE " ++ regText x ++ ", " ++ regText y
  | .ldImm x nn => "LD " ++ regText x ++ ", " ++ byteText nn
  | .addImm x nn => "ADD " ++ regText x ++ ", " ++ byteText nn
  | .ldReg x y => "LD " ++ regText x ++ ", " ++ regText y
  | .orReg x y => "OR " ++ regText x ++ ", " ++ regText y
  | .andReg x y => "AND " ++ regText x ++ ", " ++ regText y
  | .xorReg x y => "XOR " ++ regText x ++ ", " ++ regText y
  | .addReg x y => "ADD " ++ regText x ++ ", " ++ regText y
  | .sub x y => "SUB " ++ regText x ++ ", " ++ regText y
  | .shr x _ => "SHR " ++ regText x
  | .subn x y => "SUBN " ++ regText x ++ ", " ++ regText y
  | .shl x _ => "SHL " ++ regText x
  | .sneReg x y _ => "SNE " ++ regText x ++ ", " ++ regText y
  | .ldI nnn => "LD I, " ++ addrText nnn
  | .jpV0 nnn => "JP V0, " ++ addrText nnn
  | .rnd x nn => "RND " ++ regText x ++ ", " ++ byteText nn
  | .drw x y n => "DRW " ++ regText x ++ ", " ++ regText y ++ ", 0x" ++ hexDigit n
  | .skp x => "SKP " ++ regText x
  | .sknp x => "SKNP " ++ regText x
  | .ldVxDt x => "LD " ++ regText x ++ ", DT"
  | .ldVxK x => "LD " ++ regText x ++ ", K"
  | .ldDtVx x => "LD DT, " ++ regText x
  | .ldStVx x => "LD ST, " ++ regText x
  | .addI x => "ADD I, " ++ regText x
  | .ldF x => "LD F, " ++ regText x
  | .ldB x => "LD B, " ++ regText x
  | .stRegs x => "LD [I], " ++ regText x
  | .ldRegs x => "LD " ++ regText x ++ ", [I]"

end Sys2Proof
end

