-- ==== Sys2Proof/Machine/State.lean ====
section
/-!
DEFINITION. The state of the core (10_state.md R20 to R33), the errors (60_exceptions.md R175) and the state after RESET (R42, 70_reset_and_hazards.md R210). Plain data throughout.
-/
namespace Sys2Proof.Machine

/-- The memory MEM (10_state.md R32, 20_memory.md R50) as the list of its bytes that differ from the reset contents, by
rising address; what an unlisted address reads as is `resetByte` of Machine/Ops.lean. -/
abbrev Memory := List Host.Cell

/-- FB[row][col] (10_state.md R30): 32 rows of 64 pixels, row 0 at the top, column 0 at the left; true is on. -/
abbrev Framebuffer := Vector (Vector Bool 64) 32

/-- The state of the machine. The fields from `v` to `mem` are the spec's state; the last five are the model's own. -/
structure State where
  /-- V[0..15] (R20). -/
  v : Vector Byte 16
  /-- I, the index register (R25): 16 bits, never masked to 12. -/
  i : Word
  /-- The program counter (R22): the address of the instruction to execute. -/
  pc : Word
  /-- SP, the number of live call-stack entries (R26): 0..16. -/
  sp : Word
  /-- STACK[0..15] (R27): the addresses of CALL instructions; not part of memory. -/
  stack : Vector Word 16
  /-- DT, the delay timer (R28). -/
  dt : Byte
  /-- ST, the sound timer (R29): no instruction reads it. -/
  st : Byte
  /-- The framebuffer (R30). -/
  fb : Framebuffer
  /-- KEY[0..15] (R31): true is down. -/
  key : Vector Bool 16
  /-- MEM[0..4095] (R32). -/
  mem : Memory
  /-- The parameter KEYWAIT_MODE (00_scope.md R5); no operation changes it (log 4). -/
  keywaitMode : KeywaitMode
  /-- The operations the driver has lined up, oldest first (R34, log 5). -/
  script : List HostOp
  /-- What the driver does after those (R34, log 5). -/
  driver : Driver
  /-- Bytes the random source has laid out for the coming draws, first one first (45_random.md R141, log 3). -/
  rndSupply : List Byte
  /-- How many free random bytes have been drawn: the argument of `Config.randomByte` (log 3). -/
  draws : Nat
  deriving DecidableEq, Repr

/-- The six errors (60_exceptions.md R175). A fault ends the operation and hands the error to the host; the state is the
one before the operation (R180), so the outcome carries none. Every one is the spec's own: safe. -/
inductive Fault where
  /-- Raised by decode for one of the 9808 illegal words, with the word (R177). Safe: the spec names the error. -/
  | unknownOpcode (word : Word)
  /-- Raised by the fetch, DRW, LD B, LD [I] and LD Vx,[I] for an address of 4096 or more: the smallest such address of
  the access (R176). Safe: the spec names the error; the payload is decision D8 (log 10). -/
  | memoryOutOfBounds (address : Nat)
  /-- Raised by CALL with 16 entries on the stack (R178). Safe: the spec names the error. -/
  | stackOverflow
  /-- Raised by RET with an empty stack (R179). Safe: the spec names the error. -/
  | stackUnderflow
  /-- Raised by LOAD for an image that does not fit, with its length (R182). Safe: the spec names the error. -/
  | programTooLarge (size : Nat)
  /-- Raised by LD Vx,K when KEYWAIT_MODE is `unimplemented`, and by nothing else (R181). Safe: the spec names the error. -/
  | unimplementedOpcode (tag : OpcodeTag)
  deriving DecidableEq, Repr

/-- Where the model itself stops. -/
inductive Refusal where
  /-- An instruction without a meaning, by its mnemonic. No arm of `exec` answers so. Safe. -/
  | notModelled (mnemonic : String)
  /-- CALL or RET in a state whose SP is above 16, which "no instruction can give it" (10_state.md R26) and which no
  operation reaches (log 7). Safe: the model stops in a state the hardware does not have. -/
  | stackPointerOutOfRange
  deriving DecidableEq, Repr

/-- The outcome of an instruction or an operation. -/
abbrev Result := Host.Outcome State Fault Refusal

/-- The machine right after RESET (10_state.md R42, 70_reset_and_hazards.md R210); memory lists nothing, so it reads as
the font table and zeros. The zeros are the spec's decisions D1 to D6 (log 1). -/
def State.reset : State where
  v := Vector.replicate 16 0
  i := 0
  pc := 0x0200
  sp := 0
  stack := Vector.replicate 16 0
  dt := 0
  st := 0
  fb := Vector.replicate 32 (Vector.replicate 64 false)
  key := Vector.replicate 16 false
  mem := []
  keywaitMode := Config.keywaitDefault
  script := []
  driver := .stepping
  rndSupply := []
  draws := 0

end Sys2Proof.Machine
end

