-- ==== Sys2Proof/Machine/Ops.lean ====
section
/-!
DEFINITION. The named operations over registers, pc, call stack and memory, and raising an error (00_scope.md R10 to R12).
-/
namespace Sys2Proof.Machine

/-! ### Errors -/

/-- R12: raise an error. The operation ends at once and the host gets the error; the state is the one before the
operation (60_exceptions.md R180), there is no handler and no saved pc (R184), and nothing returns from it (R185). -/
def raise (f : Fault) : Result := .fault f

/-- Go on with the value of a check, or raise its error. -/
def orRaise {α : Type} (e : Except Fault α) (k : α → Result) : Result :=
  match e with
  | .ok a => k a
  | .error f => raise f

/-- The numeric codes of R175, for a model that wants numbers; nothing depends on them (log 19). -/
def faultCode : Fault → Nat
  | .unknownOpcode _ => 1
  | .memoryOutOfBounds _ => 2
  | .stackOverflow => 3
  | .stackUnderflow => 4
  | .programTooLarge _ => 5
  | .unimplementedOpcode _ => 6

/-! ### General registers (10_state.md R20): no register is hard-wired -/

/-- V[r]. -/
def readReg (s : State) (r : RegNum) : Byte := s.v[r.toNat]'r.isLt

/-- V[r] <- b. -/
def writeReg (r : RegNum) (b : Byte) (s : State) : State := { s with v := s.v.set r.toNat b r.isLt }

/-- V[k] <- bs[0], V[k+1] <- bs[1], and so on. -/
def writeRegs : Nat → List Byte → State → State
  | _, [], s => s
  | k, b :: bs, s => writeRegs (k + 1) bs (writeReg (BitVec.ofNat 4 k) b s)

/-! ### Program counter and the other full-width registers -/

/-- pc <- target. -/
def setPc (target : Word) (s : State) : State := { s with pc := target }

/-- pc <- (pc + 2) mod 65536: the next instruction (30_encoding.md R84). -/
def advance (s : State) : State := setPc (s.pc + 2) s

/-- pc + 4 if the condition holds, else pc + 2 (30_encoding.md R84, 41_skip.md). -/
def skipIf (c : Bool) (s : State) : State := if c then setPc (s.pc + 4) s else advance s

/-- I <- a. -/
def setIndex (a : Word) (s : State) : State := { s with i := a }

/-- DT <- b. -/
def setDelay (b : Byte) (s : State) : State := { s with dt := b }

/-- ST <- b. -/
def setSound (b : Byte) (s : State) : State := { s with st := b }

/-- FB <- fb. -/
def setScreen (fb : Framebuffer) (s : State) : State := { s with fb := fb }

/-- MEM <- m. -/
def setMem (m : Memory) (s : State) : State := { s with mem := m }

/-! ### Call stack (10_state.md R26, R27) -/

/-- Push an entry, or raise StackOverflow at depth 16 (40_control_transfer.md R101). -/
def pushEntry (entry : Word) (s : State) (k : State → Result) : Result :=
  if s.sp.toNat = 16 then raise .stackOverflow
  else if h : s.sp.toNat < 16 then k { s with stack := s.stack.set s.sp.toNat entry h, sp := s.sp + 1 }
  else .refused .stackPointerOutOfRange

/-- Pop the most recent entry, or raise StackUnderflow when empty (40_control_transfer.md R102). The entry stays in the
array as a dead value. -/
def popEntry (s : State) (k : Word → State → Result) : Result :=
  if h0 : s.sp.toNat = 0 then raise .stackUnderflow
  else if h : s.sp.toNat ≤ 16 then k (s.stack[s.sp.toNat - 1]'(by omega)) { s with sp := s.sp - 1 }
  else .refused .stackPointerOutOfRange

/-! ### Memory (20_memory.md) -/

/-- FONT[0..79] (70_reset_and_hazards.md R211): five bytes a digit, 0 to F (log 2). -/
def font : List Byte :=
  [0xF0, 0x90, 0x90, 0x90, 0xF0] ++ [0x20, 0x60, 0x20, 0x20, 0x70] ++
  [0xF0, 0x10, 0xF0, 0x80, 0xF0] ++ [0xF0, 0x10, 0xF0, 0x10, 0xF0] ++
  [0x90, 0x90, 0xF0, 0x10, 0x10] ++ [0xF0, 0x80, 0xF0, 0x10, 0xF0] ++
  [0xF0, 0x80, 0xF0, 0x90, 0xF0] ++ [0xF0, 0x10, 0x20, 0x40, 0x40] ++
  [0xF0, 0x90, 0xF0, 0x90, 0xF0] ++ [0xF0, 0x90, 0xF0, 0x10, 0xF0] ++
  [0xF0, 0x90, 0xF0, 0x90, 0x90] ++ [0xE0, 0x90, 0xE0, 0x90, 0xE0] ++
  [0xF0, 0x80, 0x80, 0x80, 0xF0] ++ [0xE0, 0x90, 0x90, 0x90, 0xE0] ++
  [0xF0, 0x80, 0xF0, 0x80, 0xF0] ++ [0xF0, 0x80, 0xF0, 0x80, 0x80]

/-- What a byte of memory that nothing has written reads as: the reset contents of 10_state.md R42, the font from
address 0 and 0x00 after it. -/
def resetByte (a : Nat) : Byte := font.getD a 0x00

/-- MEM[a]. -/
def readByte : Memory → Nat → Byte
  | [], a => resetByte a
  | c :: m, a => if c.1 = a then c.2 else readByte m a

/-- MEM[a] <- b, keeping the list canonical: writing the reset byte takes the entry out. -/
def writeByte : Memory → Nat → Byte → Memory
  | [], a, b => if b = resetByte a then [] else [(a, b)]
  | c :: m, a, b =>
    if a < c.1 then (if b = resetByte a then c :: m else (a, b) :: c :: m)
    else if a = c.1 then (if b = resetByte a then m else (a, b) :: m)
    else c :: writeByte m a b

/-- MEM[a] <- bs[0], MEM[a+1] <- bs[1], and so on, by ascending address (20_memory.md R54). -/
def writeBytes : Memory → Nat → List Byte → Memory
  | m, _, [] => m
  | m, a, b :: bs => writeBytes (writeByte m a b) (a + 1) bs

/-- The bytes MEM[a], ..., MEM[a+n-1]. -/
def readBytes (m : Memory) (a n : Nat) : List Byte := (List.range n).map fun k => readByte m (a + k)

/-- The canonical form: addresses strictly rising and below 4096, no entry equal to what an unlisted address reads as. -/
def Memory.wf (m : Memory) : Bool :=
  decide (m.Pairwise fun c d => c.1 < d.1) && m.all fun c => decide (c.1 < Config.memSize) && c.2 != resetByte c.1

/-- The smallest address of the access `a, ..., a+n-1` that is out of range, if any (00_scope.md R10, R11). Addresses are
natural numbers and never wrap (20_memory.md R59). -/
def firstOutOfRange (a n : Nat) : Option Nat :=
  ((List.range n).map fun k => a + k).find? fun b => decide (Config.memSize ≤ b)

/-- MemRead(a, n) (00_scope.md R10). -/
def memRead (m : Memory) (a n : Nat) : Except Fault (List Byte) :=
  match firstOutOfRange a n with
  | some b => .error (.memoryOutOfBounds b)
  | none => .ok (readBytes m a n)

/-- MemWrite(a, n, bs) with n the length of `bs` (00_scope.md R11): all of it or nothing. -/
def memWrite (m : Memory) (a : Nat) (bs : List Byte) : Except Fault Memory :=
  match firstOutOfRange a bs.length with
  | some b => .error (.memoryOutOfBounds b)
  | none => .ok (writeBytes m a bs)

/-! ### Keypad -/

/-- KEY[k] (10_state.md R31). -/
def keyDown (s : State) (k : Nibble) : Bool := s.key[k.toNat]'k.isLt

end Sys2Proof.Machine
end

