-- ==== Sys2Proof/Machine/Flags.lean ====
section
/-!
DEFINITION. The flag rules of the core: VF gets 0 or 1 (10_state.md R21) by carry, not-borrow, bit shifted out
(43_alu.md R125 to R129) or collision (46_draw_and_clear.md R149, computed in Machine/Display.lean).
-/
namespace Sys2Proof.Machine

/-- The byte a flag is written as: 0x00 or 0x01 (10_state.md R21). -/
def flagByte (f : Bool) : Byte := if f then 1 else 0

/-- The carry out of bit 7: the sum passes 255 (43_alu.md R125). -/
def carryFlag (a b : Byte) : Bool := decide (255 < a.toNat + b.toNat)

/-- No borrow in a - b: a >= b (43_alu.md R126, R128). -/
def notBorrowFlag (a b : Byte) : Bool := decide (b.toNat ≤ a.toNat)

/-- Bit 0, shifted out to the right (43_alu.md R127). -/
def shiftedOutRight (a : Byte) : Bool := a.getLsbD 0

/-- Bit 7, shifted out to the left (43_alu.md R129). -/
def shiftedOutLeft (a : Byte) : Bool := a.getLsbD 7

/-- VF <- flag. -/
def writeFlag (f : Bool) (s : State) : State := writeReg VF (flagByte f) s

/-- 43_alu.md R120: the result is written to Vx, then the flag to VF, so that VF ends as the flag when x = 15. -/
def writeResultFlag (x : RegNum) (result : Byte) (f : Bool) (s : State) : State :=
  writeFlag f (writeReg x result s)

end Sys2Proof.Machine
end

