-- ==== Sys2Proof/Machine/Alu.lean ====
section
/-!
DEFINITION. The register-to-register family (43_alu.md): 8xy0 to 8xy7 and 8xyE.
-/
namespace Sys2Proof.Machine

/-- `LD Vx, Vy` (R121). -/
def execLdReg (x y : RegNum) (s : State) : Result := .next (advance (writeReg x (readReg s y) s))

/-- `OR Vx, Vy` (R122): VF is not written (log 13). -/
def execOr (x y : RegNum) (s : State) : Result := .next (advance (writeReg x (readReg s x ||| readReg s y) s))

/-- `AND Vx, Vy` (R123): VF is not written (log 13). -/
def execAnd (x y : RegNum) (s : State) : Result := .next (advance (writeReg x (readReg s x &&& readReg s y) s))

/-- `XOR Vx, Vy` (R124): VF is not written (log 13). -/
def execXor (x y : RegNum) (s : State) : Result := .next (advance (writeReg x (readReg s x ^^^ readReg s y) s))

/-- `ADD Vx, Vy` (R125): VF is the carry. -/
def execAddReg (x y : RegNum) (s : State) : Result :=
  let a := readReg s x
  let b := readReg s y
  .next (advance (writeResultFlag x (a + b) (carryFlag a b) s))

/-- `SUB Vx, Vy` (R126): VF is the not-borrow of Vx - Vy. -/
def execSub (x y : RegNum) (s : State) : Result :=
  let a := readReg s x
  let b := readReg s y
  .next (advance (writeResultFlag x (a - b) (notBorrowFlag a b) s))

/-- `SHR Vx` (R127): Vy is neither read nor written (log 13). -/
def execShr (x _y : RegNum) (s : State) : Result :=
  let a := readReg s x
  .next (advance (writeResultFlag x (a >>> 1) (shiftedOutRight a) s))

/-- `SUBN Vx, Vy` (R128): VF is the not-borrow of Vy - Vx. -/
def execSubn (x y : RegNum) (s : State) : Result :=
  let a := readReg s x
  let b := readReg s y
  .next (advance (writeResultFlag x (b - a) (notBorrowFlag b a) s))

/-- `SHL Vx` (R129): Vy is neither read nor written (log 13). -/
def execShl (x _y : RegNum) (s : State) : Result :=
  let a := readReg s x
  .next (advance (writeResultFlag x (a <<< 1) (shiftedOutLeft a) s))

end Sys2Proof.Machine
end

