-- ==== Sys2Proof/Machine/Operands.lean ====
section
/-!
DEFINITION. The operand forms (30_encoding.md R78, R79): immediates used as they stand or zero-extended, register bytes as
coordinates, key numbers and digits, the register block V0..Vx, the random byte of a STEP.
-/
namespace Sys2Proof.Machine

/-- zext_16(nnn) (R78). -/
def addrOf (nnn : Addr12) : Word := nnn.zeroExtend 16

/-- zext_16(b) of a register byte (R78). -/
def wordOf (b : Byte) : Word := b.zeroExtend 16

/-- Bits 3..0 of a register byte: the key number of SKP and SKNP (47_keypad.md R155) and the digit of LD F
(49_font_bcd_block.md R165). -/
def lowNibble (b : Byte) : Nibble := b.extractLsb' 0 4

/-- The column V[x] mod 64 at which a sprite starts (46_draw_and_clear.md R148). -/
def originCol (b : Byte) : Nat := b.toNat % Config.fbWidth

/-- The row V[y] mod 32 at which a sprite starts (46_draw_and_clear.md R148). -/
def originRow (b : Byte) : Nat := b.toNat % Config.fbHeight

/-- The effective address of every data access: I as a natural number (44_index.md, 20_memory.md R59). -/
def indexAddr (s : State) : Nat := s.i.toNat

/-- V[0], V[1], ..., V[x] (49_font_bcd_block.md R167). -/
def regBlock (x : RegNum) (s : State) : List Byte :=
  (List.range (x.toNat + 1)).map fun k => readReg s (BitVec.ofNat 4 k)

/-- The address of the font sprite of a digit: FONT_BASE + FONT_STRIDE * d (49_font_bcd_block.md R165). -/
def fontAddr (d : Nibble) : Word := BitVec.ofNat 16 (Config.fontBase + Config.fontStride * d.toNat)

/-- The hundreds, tens and units digits of a byte (49_font_bcd_block.md R166). -/
def bcdDigits (b : Byte) : List Byte :=
  [BitVec.ofNat 8 (b.toNat / 100), BitVec.ofNat 8 (b.toNat / 10 % 10), BitVec.ofNat 8 (b.toNat % 10)]

/-- The byte the random source gives to the next RND (45_random.md R141): the first one laid out, or a free value. -/
def nextRandom (s : State) : Byte :=
  match s.rndSupply with
  | b :: _ => b
  | [] => Config.randomByte s.draws

/-- The random source after that byte is taken. -/
def consumeRandom (s : State) : State :=
  match s.rndSupply with
  | _ :: bs => { s with rndSupply := bs }
  | [] => { s with draws := s.draws + 1 }

end Sys2Proof.Machine
end

