-- ==== Sys2Proof/Machine/Control.lean ====
section
/-!
DEFINITION. Control transfer (40_control_transfer.md): JP, CALL, RET, JP V0, SYS.
-/
namespace Sys2Proof.Machine

/-- `SYS nnn`, a no-op (R104). -/
def execSys (_nnn : Addr12) (s : State) : Result := .next (advance s)

/-- `JP nnn` (R100). -/
def execJp (nnn : Addr12) (s : State) : Result := .next (setPc (addrOf nnn) s)

/-- `CALL nnn` (R101): pushes its own address, the pre-call pc (log 8). -/
def execCall (nnn : Addr12) (s : State) : Result :=
  pushEntry s.pc s fun t => .next (setPc (addrOf nnn) t)

/-- `RET` (R102): pc <- popped entry + 2. -/
def execRet (s : State) : Result :=
  popEntry s fun entry t => .next (setPc (entry + 2) t)

/-- `JP V0, nnn` (R103): no 12-bit mask. -/
def execJpV0 (nnn : Addr12) (s : State) : Result :=
  .next (setPc (addrOf nnn + wordOf (readReg s 0)) s)

end Sys2Proof.Machine
end

