-- ==== Sys2Proof/Machine/Display.lean ====
section
/-!
DEFINITION. The two writers of the framebuffer (46_draw_and_clear.md): CLS and DRW.
-/
namespace Sys2Proof.Machine

/-- FB[row][col] (10_state.md R30). -/
def pixel (fb : Framebuffer) (row : Fin 32) (col : Fin 64) : Bool := (fb[row.val]'row.isLt)[col.val]'col.isLt

/-- Pixel column c, 0 (left) to 7 (right), of a sprite row: bit 7 - c (R147, log 14). -/
def spriteBit (b : Byte) (c : Nat) : Bool := b.getLsbD (7 - c)

/-- Invert one pixel and note whether it was on; a pixel past the right or bottom edge is clipped: not drawn and not
tested (R148). The pair is the framebuffer and the collision flag so far. -/
def plot (row col : Nat) (p : Framebuffer × Bool) : Framebuffer × Bool :=
  if hr : row < 32 then
    if hc : col < 64 then
      let old := (p.1[row]'hr)[col]'hc
      (p.1.set row ((p.1[row]'hr).set col (!old) hc) hr, p.2 || old)
    else p
  else p

/-- One sprite row: its eight pixels from the left, at framebuffer row `row` from column `col0` (R145). -/
def drawRow (row col0 : Nat) (b : Byte) (p : Framebuffer × Bool) : Framebuffer × Bool :=
  (List.range 8).foldl (fun p c => if spriteBit b c then plot row (col0 + c) p else p) p

/-- The rows of a sprite from the top, downward from framebuffer row `row0` (R145, R147). -/
def drawRows : List Byte → Nat → Nat → Framebuffer × Bool → Framebuffer × Bool
  | [], _, _, p => p
  | b :: bs, row0, col0, p => drawRows bs (row0 + 1) col0 (drawRow row0 col0 b p)

/-- The framebuffer and the collision flag after a sprite is drawn with its top-left corner at (row0, col0). The flag
starts at 0: it is computed for this instruction alone (R149). -/
def drawSprite (bs : List Byte) (row0 col0 : Nat) (fb : Framebuffer) : Framebuffer × Bool :=
  drawRows bs row0 col0 (fb, false)

/-- `DRW Vx, Vy, n` (R145): all n bytes are read before anything changes, clipped rows included (log 14). -/
def execDrw (x y : RegNum) (n : Nibble) (s : State) : Result :=
  let col0 := originCol (readReg s x)
  let row0 := originRow (readReg s y)
  orRaise (memRead s.mem (indexAddr s) n.toNat) fun bs =>
    let p := drawSprite bs row0 col0 s.fb
    .next (advance (writeFlag p.2 (setScreen p.1 s)))

/-- `CLS` (R146). -/
def execCls (s : State) : Result :=
  .next (advance (setScreen (Vector.replicate 32 (Vector.replicate 64 false)) s))

end Sys2Proof.Machine
end

