-- ==== Sys2Proof/Machine/Immediate.lean ====
section
/-!
DEFINITION. Immediate load and add (42_immediate.md).
-/
namespace Sys2Proof.Machine

/-- `LD Vx, nn` (R115). -/
def execLdImm (x : RegNum) (nn : Byte) (s : State) : Result := .next (advance (writeReg x nn s))

/-- `ADD Vx, nn` (R116): modulo 256, no flag. -/
def execAddImm (x : RegNum) (nn : Byte) (s : State) : Result := .next (advance (writeReg x (readReg s x + nn) s))

end Sys2Proof.Machine
end

