-- ==== Sys2Proof/Machine/Index.lean ====
section
/-!
DEFINITION. The index register (44_index.md): LD I and ADD I.
-/
namespace Sys2Proof.Machine

/-- `LD I, nnn` (R135). -/
def execLdI (nnn : Addr12) (s : State) : Result := .next (advance (setIndex (addrOf nnn) s))

/-- `ADD I, Vx` (R136): modulo 65536, no 12-bit mask, VF is not written (log 13). -/
def execAddI (x : RegNum) (s : State) : Result := .next (advance (setIndex (s.i + wordOf (readReg s x)) s))

end Sys2Proof.Machine
end

