-- ==== Sys2Proof/Machine/Keypad.lean ====
section
/-!
DEFINITION. The keypad instructions (47_keypad.md): SKP, SKNP, LD Vx,K.
-/
namespace Sys2Proof.Machine

/-- `SKP Vx` (R155): the key is the low nibble of Vx. -/
def execSkp (x : RegNum) (s : State) : Result := .next (skipIf (keyDown s (lowNibble (readReg s x))) s)

/-- `SKNP Vx` (R156). -/
def execSknp (x : RegNum) (s : State) : Result := .next (skipIf (!keyDown s (lowNibble (readReg s x))) s)

/-- The smallest key number that is down, if any (R157). -/
def lowestKeyDown (s : State) : Option Nibble := ((List.range 16).map (BitVec.ofNat 4)).find? (keyDown s)

/-- `LD Vx, K` (R157): by KEYWAIT_MODE, an error, or a wait that takes the lowest key down and otherwise leaves the whole
state as it is, so that the next STEP executes the same instruction (log 4, log 20). -/
def execLdVxK (x : RegNum) (s : State) : Result :=
  match s.keywaitMode with
  | .unimplemented => raise (.unimplementedOpcode .LD_VX_K)
  | .wait =>
    match lowestKeyDown s with
    | some k => .next (advance (writeReg x (k.zeroExtend 8) s))
    | none => .next s

end Sys2Proof.Machine
end

