-- ==== Sys2Proof/Machine/Random.lean ====
section
/-!
DEFINITION. RND (45_random.md).
-/
namespace Sys2Proof.Machine

/-- `RND Vx, nn` (R140): the random byte of this STEP under the mask (R141, log 3). -/
def execRnd (x : RegNum) (nn : Byte) (s : State) : Result :=
  .next (advance (writeReg x (nextRandom s &&& nn) (consumeRandom s)))

end Sys2Proof.Machine
end

