-- ==== Sys2Proof/Machine/Skip.lean ====
section
/-!
DEFINITION. Conditional skips (41_skip.md).
-/
namespace Sys2Proof.Machine

/-- `SE Vx, nn` (R110). -/
def execSeImm (x : RegNum) (nn : Byte) (s : State) : Result := .next (skipIf (readReg s x == nn) s)

/-- `SNE Vx, nn` (R111). -/
def execSneImm (x : RegNum) (nn : Byte) (s : State) : Result := .next (skipIf (readReg s x != nn) s)

/-- `SE Vx, Vy` (R112); the low nibble is ignored (30_encoding.md R91). -/
def execSeReg (x y : RegNum) (_z : Nibble) (s : State) : Result := .next (skipIf (readReg s x == readReg s y) s)

/-- `SNE Vx, Vy` (R113); the low nibble is ignored (30_encoding.md R91). -/
def execSneReg (x y : RegNum) (_z : Nibble) (s : State) : Result := .next (skipIf (readReg s x != readReg s y) s)

end Sys2Proof.Machine
end

