-- ==== Sys2Proof/Machine/Timers.lean ====
section
/-!
DEFINITION. The timer instructions (48_timers.md). No instruction reads ST.
-/
namespace Sys2Proof.Machine

/-- `LD Vx, DT` (R160). -/
def execLdVxDt (x : RegNum) (s : State) : Result := .next (advance (writeReg x s.dt s))

/-- `LD DT, Vx` (R161). -/
def execLdDtVx (x : RegNum) (s : State) : Result := .next (advance (setDelay (readReg s x) s))

/-- `LD ST, Vx` (R162). -/
def execLdStVx (x : RegNum) (s : State) : Result := .next (advance (setSound (readReg s x) s))

end Sys2Proof.Machine
end

