-- ==== Sys2Proof/Machine/Transfer.lean ====
section
/-!
DEFINITION. Font address, BCD store and block transfers (49_font_bcd_block.md). I is never changed by an access (log 15).
-/
namespace Sys2Proof.Machine

/-- `LD F, Vx` (R165): the digit is the low nibble of Vx; memory is not accessed. -/
def execLdF (x : RegNum) (s : State) : Result :=
  .next (advance (setIndex (fontAddr (lowNibble (readReg s x))) s))

/-- `LD B, Vx` (R166). -/
def execLdB (x : RegNum) (s : State) : Result :=
  orRaise (memWrite s.mem (indexAddr s) (bcdDigits (readReg s x))) fun m => .next (advance (setMem m s))

/-- `LD [I], Vx` (R167). -/
def execStRegs (x : RegNum) (s : State) : Result :=
  orRaise (memWrite s.mem (indexAddr s) (regBlock x s)) fun m => .next (advance (setMem m s))

/-- `LD Vx, [I]` (R168). -/
def execLdRegs (x : RegNum) (s : State) : Result :=
  orRaise (memRead s.mem (indexAddr s) (x.toNat + 1)) fun bs => .next (advance (writeRegs 0 bs s))

end Sys2Proof.Machine
end

