-- ==== Sys2Proof/Machine/HostOps.lean ====
section
/-!
DEFINITION. The operations of the host, the tick source and the input poller (10_state.md R36 to R40, 60_exceptions.md R190,
70_reset_and_hazards.md R210, R213), other than STEP.
-/
namespace Sys2Proof.Machine

/-- A timer counts down to a floor of 0 (60_exceptions.md R190). -/
def countDown (b : Byte) : Byte := if 0 < b.toNat then b - 1 else b

/-- TICK (R36, R190): both timers, and nothing else. -/
def tick (s : State) : State := { s with dt := countDown s.dt, st := countDown s.st }

/-- KEYWRITE(k, b) (R37). -/
def keyWrite (k : Nibble) (b : Bool) (s : State) : State := { s with key := s.key.set k.toNat b k.isLt }

/-- RESET (70_reset_and_hazards.md R210): every piece of the spec's state at its reset value. The parameter KEYWAIT_MODE,
the driver's order of operations and the random source are not state of the core and stay. -/
def resetState (s : State) : State :=
  { State.reset with
    keywaitMode := s.keywaitMode, script := s.script, driver := s.driver, rndSupply := s.rndSupply, draws := s.draws }

/-- LOAD(bytes) (70_reset_and_hazards.md R213): the image at 0x200, or ProgramTooLarge with its length when it is longer
than 4096 - 0x200 = 3584; nothing else changes. -/
def loadProgram (bytes : List Byte) (s : State) : Result :=
  if Config.memSize - Config.progBase < bytes.length then raise (.programTooLarge bytes.length)
  else .next (setMem (writeBytes s.mem Config.progBase bytes) s)

/-- FBREAD (R38): the 2048 pixel values, row by row from the top left. -/
def fbRead (s : State) : List Bool := s.fb.toList.flatMap Vector.toList

/-- TIMERREAD (R39): DT and ST. -/
def timerRead (s : State) : Byte × Byte := (s.dt, s.st)

end Sys2Proof.Machine
end

