-- ==== Sys2Proof/Machine/Operations.lean ====
section
/-!
DEFINITION. Fetch (30_encoding.md R81), the operation STEP (R80) and the performance of one lined-up operation
(10_state.md R34).
-/
namespace Sys2Proof.Machine

/-- Fetch(pc) (R81): two bytes, big-endian; MemoryOutOfBounds when pc + 1 >= 4096. -/
def fetch (s : State) : Except Fault Word :=
  match memRead s.mem s.pc.toNat 2 with
  | .ok bs => .ok (wordOfBytes (bs.getD 0 0) (bs.getD 1 0))
  | .error f => .error f

/-- Fetch and decode (R80 steps 1 and 2): the fetch error comes before the decode error (60_exceptions.md R183). -/
def fetchDecode (s : State) : Except Fault Instr :=
  match fetch s with
  | .ok w =>
    match decodeWord? w with
    | some i => .ok i
    | none => .error (.unknownOpcode w)
  | .error f => .error f

/-- STEP (R80): fetch, decode, execute. The random byte is that of the random source (`nextRandom`). -/
def instrStep (s : State) : Result := orRaise (fetchDecode s) fun i => exec i s

/-- STEP(rnd) with the driver's own byte (10_state.md R35): the byte counts for this STEP only. -/
def instrStepWith (rnd : Byte) (s : State) : Result :=
  match instrStep { s with rndSupply := rnd :: s.rndSupply } with
  | .next t => .next { t with rndSupply := s.rndSupply }
  | .fault f => .fault f
  | .refused r => .refused r

/-- One operation of the core (10_state.md R34). FBREAD and TIMERREAD answer the host (`fbRead`, `timerRead`) and change
nothing. -/
def perform (op : HostOp) (s : State) : Result :=
  match op with
  | .reset => .next (resetState s)
  | .load bytes => loadProgram bytes s
  | .step rnd => instrStepWith rnd s
  | .tick => .next (tick s)
  | .keyWrite k b => .next (keyWrite k b s)
  | .fbRead => .next s
  | .timerRead => .next s

/-- The next operation of a run: the oldest the driver has lined up; with none lined up, a STEP of a driver that only steps,
or the next operation of a driver's own endless order (log 5). -/
def nextOperation (s : State) : Result :=
  match s.script with
  | op :: rest => perform op { s with script := rest }
  | [] =>
    match s.driver with
    | .stepping => instrStep s
    | .free n => perform (Config.driverOp n) { s with driver := .free (n + 1) }

/-- Where the core stands after an error of the operation `nextOperation` names: the state is unchanged (60_exceptions.md
R180), and that operation is taken off the driver's order, so that a driver that goes on can (10_state.md R41, log 9). -/
def afterError (s : State) : State :=
  match s.script with
  | _ :: rest => { s with script := rest }
  | [] =>
    match s.driver with
    | .stepping => s
    | .free n => { s with driver := .free (n + 1) }

/-- Store a 16-bit instruction word where `fetch` reads it; addresses that do not exist are left out. -/
def placeWord (w : Word) (s : State) : State :=
  if s.pc.toNat + 1 < Config.memSize then setMem (writeBytes s.mem s.pc.toNat (bytesOfWord w)) s else s

end Sys2Proof.Machine
end

