-- ==== Sys2Proof/Machine/Step.lean ====
section
/-!
DEFINITION. One step of the machine: one atomic operation of the core (10_state.md R34).
-/
namespace Sys2Proof.Machine

/-- One step: the next operation of the driver's order, a STEP (30_encoding.md R80) where the driver has lined up nothing
else and only steps. -/
def step (s : State) : Host.Outcome State Fault Refusal := nextOperation s

/-- `s` with the low `nbits` bits of `w` stored as the instruction word at pc and no other operation of the driver before it,
so that the next step fetches and runs exactly it (log 6). -/
def State.withFetchWord (s : State) (nbits w : Nat) : State :=
  placeWord (BitVec.ofNat 16 (w % 2 ^ nbits)) { s with script := [], driver := .stepping }

end Sys2Proof.Machine
end

