-- ==== Sys2Proof/Safety.lean ====
section
/-!
DEFINITION. The terms claims are stated in: the invariant of the machine, a parked program, sequences of instructions and of
operations, and what one step leaves unchanged.
-/
namespace Sys2Proof.Machine

/-- What every operation keeps: memory is in canonical form; SP stays in 0..16 (10_state.md R26); every live call-stack
entry is the address of a CALL that was fetched, so at most 0xFFE (R27); pc is at most 0x10FE (R24). -/
structure State.Inv (s : State) : Prop where
  memCanonical : s.mem.wf = true
  spRange : s.sp.toNat ≤ 16
  liveEntries : ∀ j : Fin 16, j.val < s.sp.toNat → (s.stack[j.val]'j.isLt).toNat ≤ 0xFFE
  pcRange : s.pc.toNat ≤ 0x10FE

/-- A parked program: the word at pc is a JP to pc itself (70_reset_and_hazards.md R217 (b)). -/
def Parked (s : State) : Prop := ∃ nnn : Addr12, fetchDecode s = .ok (.jp nnn) ∧ s.pc = addrOf nnn

/-- One instruction after another, stopping at the first that gives no next state. -/
def execAll : List Instr → State → Result
  | [], s => .next s
  | i :: is, s =>
    match exec i s with
    | .next t => execAll is t
    | .fault f => .fault f
    | .refused r => .refused r

/-- One operation after another, stopping at the first that gives no next state (10_state.md R34). -/
def performAll : List HostOp → State → Result
  | [], s => .next s
  | op :: ops, s =>
    match perform op s with
    | .next t => performAll ops t
    | .fault f => .fault f
    | .refused r => .refused r

/-- `k` operations of a driver that goes on after errors (10_state.md R34, R41). -/
def runOn : Nat → State → State
  | 0, s => s
  | k + 1, s =>
    match step s with
    | .next t => runOn k t
    | .fault _ => runOn k (afterError s)
    | .refused _ => s

/-- `t.pc` is `k` past `s.pc`, modulo 65536 (10_state.md R24, 30_encoding.md R84). -/
abbrev PcPlus (k : Nat) (s t : State) : Prop := t.pc.toNat = (s.pc.toNat + k) % 65536

/-- The bytes `a, ..., a+n-1` exist (20_memory.md R50, R59). -/
abbrev AccessFits (a n : Nat) : Prop := n = 0 ∨ a + n ≤ 4096

/-- The address an access that does not fit reports (60_exceptions.md R176). -/
def reportedAddress (a : Nat) : Nat := if 4096 ≤ a then a else 4096

/-- V[0], ..., V[x] as register numbers. -/
def regsUpTo (x : RegNum) : List RegNum := (List.range (x.toNat + 1)).map (BitVec.ofNat 4)

/-- The pixel (row, col) belongs to a drawn 1-pixel of the sprite of `n` bytes at `a`, placed at (row0, col0) and
clipped at the edges (46_draw_and_clear.md R147, R148). -/
abbrev spriteCovers (m : Memory) (a n row0 col0 : Nat) (row : Fin 32) (col : Fin 64) : Prop :=
  row0 ≤ row.val ∧ row.val < row0 + n ∧ col0 ≤ col.val ∧ col.val < col0 + 8 ∧
    (readByte m (a + (row.val - row0))).getLsbD (7 - (col.val - col0)) = true

/-- What an instruction may change, pc apart. -/
structure Footprint where
  /-- Registers it may write. -/
  regs : List RegNum := []
  /-- It may write I. -/
  index : Bool := false
  /-- It may write SP and STACK. -/
  stack : Bool := false
  /-- It may write DT. -/
  delay : Bool := false
  /-- It may write ST. -/
  sound : Bool := false
  /-- It may write FB. -/
  screen : Bool := false
  /-- It may take a byte from the random source. -/
  random : Bool := false
  /-- The first byte of memory it may write. -/
  memAt : Nat := 0
  /-- How many bytes of memory it may write from there. -/
  memLen : Nat := 0

/-- Everything outside the footprint is unchanged from `s` to `t`: registers, I, call stack, timers, framebuffer, every
byte of memory, the random source; and the key flags, KEYWAIT_MODE and the driver's order of operations in any case. pc may
change. -/
structure Frame (f : Footprint) (s t : State) : Prop where
  regs : ∀ r, r ∉ f.regs → readReg t r = readReg s r
  index : f.index = false → t.i = s.i
  stack : f.stack = false → t.sp = s.sp ∧ t.stack = s.stack
  delay : f.delay = false → t.dt = s.dt
  sound : f.sound = false → t.st = s.st
  screen : f.screen = false → t.fb = s.fb
  random : f.random = false → t.rndSupply = s.rndSupply ∧ t.draws = s.draws
  mem : ∀ a, ¬ (f.memAt ≤ a ∧ a < f.memAt + f.memLen) → readByte t.mem a = readByte s.mem a
  keys : t.key = s.key
  mode : t.keywaitMode = s.keywaitMode
  driver : t.script = s.script ∧ t.driver = s.driver

/-- The write entries of the access table 10_state.md R43, with the addresses of 20_memory.md R52. -/
def footprint (i : Instr) (s : State) : Footprint :=
  match i with
  | .sys _ | .jp _ | .jpV0 _ | .seImm _ _ | .sneImm _ _ | .seReg _ _ _ | .sneReg _ _ _ | .skp _ | .sknp _ => { }
  | .cls => { screen := true }
  | .ret | .call _ => { stack := true }
  | .ldImm x _ | .addImm x _ | .ldReg x _ | .orReg x _ | .andReg x _ | .xorReg x _ => { regs := [x] }
  | .ldVxDt x | .ldVxK x => { regs := [x] }
  | .addReg x _ | .sub x _ | .subn x _ | .shr x _ | .shl x _ => { regs := [x, VF] }
  | .ldI _ | .addI _ | .ldF _ => { index := true }
  | .rnd x _ => { regs := [x], random := true }
  | .drw _ _ _ => { regs := [VF], screen := true }
  | .ldDtVx _ => { delay := true }
  | .ldStVx _ => { sound := true }
  | .ldB _ => { memAt := s.i.toNat, memLen := 3 }
  | .stRegs x => { memAt := s.i.toNat, memLen := x.toNat + 1 }
  | .ldRegs x => { regs := regsUpTo x }

end Sys2Proof.Machine
end

