-- ==== Sys2Proof/Certificates/Slice0/Obligations.lean ====
section
/-!
DEFINITION. The statements about the model, each with the rule or section of spec/ it formalises. Results are said in natural
numbers (00_scope.md R8); `Frame` says what is unchanged.
-/
open Sys2Proof Sys2Proof.Machine

/-! ### Control transfer -/

/-- R100: `JP nnn` sets pc to nnn and changes nothing else; odd and high targets included. -/
def Obligations.JumpSetsPcOnly : Prop :=
  ∀ (nnn : Addr12) (s : State), ∃ t, exec (.jp nnn) s = .next t ∧ t.pc.toNat = nnn.toNat ∧ Frame {} s t

/-- R104: `SYS nnn` only advances pc, whatever nnn. -/
def Obligations.SysOnlyAdvancesPc : Prop :=
  ∀ (nnn : Addr12) (s : State), ∃ t, exec (.sys nnn) s = .next t ∧ PcPlus 2 s t ∧ Frame {} s t

/-- 40_control_transfer.md: `JP V0, nnn` sets pc to nnn + V0. That the sum is not masked to 12 bits is the spec's decision
D16. -/
def Obligations.OffsetJumpAddsV0 : Prop :=
  ∀ (nnn : Addr12) (s : State), ∃ t, exec (.jpV0 nnn) s = .next t ∧
    t.pc.toNat = nnn.toNat + (readReg s 0).toNat ∧ Frame {} s t

/-- 40_control_transfer.md: below depth 16, `CALL nnn` writes its own address to STACK[SP], adds 1 to SP and jumps. That the
entry is the address of the CALL is the spec's decision D11; that SP counts entries is D3 (logs 7, 8). -/
def Obligations.CallPushesItsOwnAddress : Prop :=
  ∀ (nnn : Addr12) (s : State), s.sp.toNat < 16 → ∃ t, exec (.call nnn) s = .next t ∧
    t.sp.toNat = s.sp.toNat + 1 ∧ t.pc.toNat = nnn.toNat ∧
    (∀ j : Fin 16, t.stack[j.val]'j.isLt = if j.val = s.sp.toNat then s.pc else s.stack[j.val]'j.isLt) ∧
    Frame { stack := true } s t

/-- 40_control_transfer.md: on a non-empty stack, `RET` takes 1 from SP and sets pc to the popped entry plus 2; the array
keeps every entry. The `+ 2` is the spec's decision D11 (log 8). -/
def Obligations.RetPopsAndAddsTwo : Prop :=
  ∀ (s : State) (j : Fin 16), j.val + 1 = s.sp.toNat → ∃ t, exec .ret s = .next t ∧
    t.sp.toNat = j.val ∧ t.stack = s.stack ∧
    t.pc.toNat = ((s.stack[j.val]'j.isLt).toNat + 2) % 65536 ∧ Frame { stack := true } s t

/-- R178, R179: with SP in 0..16, StackOverflow is raised by CALL with 16 entries on the stack and by no other instruction,
StackUnderflow by RET with none and by no other instruction. -/
def Obligations.StackErrorsExactly : Prop :=
  ∀ (i : Instr) (s : State), s.sp.toNat ≤ 16 →
    (exec i s = .fault .stackOverflow ↔ (∃ nnn, i = .call nnn) ∧ s.sp.toNat = 16) ∧
    (exec i s = .fault .stackUnderflow ↔ i = .ret ∧ s.sp.toNat = 0)

/-- The source's property S2 (95_test_vectors.md): CALL, then RET at once, leaves pc after the CALL, the depth as before and
every live entry, and changes nothing outside the call stack. -/
def Obligations.CallThenReturnComesBack : Prop :=
  ∀ (nnn : Addr12) (s : State), s.sp.toNat < 16 → ∃ t u, exec (.call nnn) s = .next t ∧ exec .ret t = .next u ∧
    PcPlus 2 s u ∧ u.sp = s.sp ∧
    (∀ j : Fin 16, j.val < s.sp.toNat → u.stack[j.val]'j.isLt = s.stack[j.val]'j.isLt) ∧
    Frame { stack := true } s u

/-- The source's property S7 (95_test_vectors.md), from any depth: nested calls up to depth 16 all succeed, and one more at
depth 16 raises StackOverflow. -/
def Obligations.CallsNestToSixteen : Prop :=
  ∀ (targets : List Addr12) (s : State), s.sp.toNat + targets.length ≤ 16 →
    ∃ t, execAll (targets.map Instr.call) s = .next t ∧ t.sp.toNat = s.sp.toNat + targets.length ∧
      ∀ nnn, s.sp.toNat + targets.length = 16 → exec (.call nnn) t = .fault .stackOverflow

/-! ### Skips -/

/-- R110, R111: SE and SNE with an immediate. -/
def Obligations.SkipsOnImmediate : Prop :=
  ∀ (x : RegNum) (nn : Byte) (s : State),
    (∃ t, exec (.seImm x nn) s = .next t ∧ Frame {} s t ∧
      ((readReg s x).toNat = nn.toNat → PcPlus 4 s t) ∧ ((readReg s x).toNat ≠ nn.toNat → PcPlus 2 s t)) ∧
    (∃ t, exec (.sneImm x nn) s = .next t ∧ Frame {} s t ∧
      ((readReg s x).toNat ≠ nn.toNat → PcPlus 4 s t) ∧ ((readReg s x).toNat = nn.toNat → PcPlus 2 s t))

/-- R112, R113: SE and SNE with two registers, for every value of the ignored low nibble. -/
def Obligations.SkipsOnRegisters : Prop :=
  ∀ (x y : RegNum) (z : Nibble) (s : State),
    (∃ t, exec (.seReg x y z) s = .next t ∧ Frame {} s t ∧
      ((readReg s x).toNat = (readReg s y).toNat → PcPlus 4 s t) ∧
      ((readReg s x).toNat ≠ (readReg s y).toNat → PcPlus 2 s t)) ∧
    (∃ t, exec (.sneReg x y z) s = .next t ∧ Frame {} s t ∧
      ((readReg s x).toNat ≠ (readReg s y).toNat → PcPlus 4 s t) ∧
      ((readReg s x).toNat = (readReg s y).toNat → PcPlus 2 s t))

/-! ### Immediates -/

/-- R115: `LD Vx, nn`, every x, VF included. -/
def Obligations.ImmediateLoadReplaces : Prop :=
  ∀ (x : RegNum) (nn : Byte) (s : State), ∃ t, exec (.ldImm x nn) s = .next t ∧
    readReg t x = nn ∧ PcPlus 2 s t ∧ Frame { regs := [x] } s t

/-- R116: `ADD Vx, nn` wraps modulo 256 and writes no register but Vx, so VF is written only when x is 15, with the sum. -/
def Obligations.ImmediateAddWraps : Prop :=
  ∀ (x : RegNum) (nn : Byte) (s : State), ∃ t, exec (.addImm x nn) s = .next t ∧
    (readReg t x).toNat = ((readReg s x).toNat + nn.toNat) % 256 ∧ PcPlus 2 s t ∧ Frame { regs := [x] } s t

/-! ### Register-to-register ALU -/

/-- R121: `LD Vx, Vy`. -/
def Obligations.RegisterCopy : Prop :=
  ∀ (x y : RegNum) (s : State), ∃ t, exec (.ldReg x y) s = .next t ∧
    readReg t x = readReg s y ∧ PcPlus 2 s t ∧ Frame { regs := [x] } s t

/-- 43_alu.md, OR, AND, XOR bit by bit; that VF is not written is the spec's decision D18 (log 13). -/
def Obligations.BitwiseOpsLeaveFlag : Prop :=
  ∀ (x y : RegNum) (s : State),
    (∃ t, exec (.orReg x y) s = .next t ∧ PcPlus 2 s t ∧ Frame { regs := [x] } s t ∧
      ∀ k, (readReg t x).getLsbD k = ((readReg s x).getLsbD k || (readReg s y).getLsbD k)) ∧
    (∃ t, exec (.andReg x y) s = .next t ∧ PcPlus 2 s t ∧ Frame { regs := [x] } s t ∧
      ∀ k, (readReg t x).getLsbD k = ((readReg s x).getLsbD k && (readReg s y).getLsbD k)) ∧
    (∃ t, exec (.xorReg x y) s = .next t ∧ PcPlus 2 s t ∧ Frame { regs := [x] } s t ∧
      ∀ k, (readReg t x).getLsbD k = ((readReg s x).getLsbD k ^^ (readReg s y).getLsbD k))

/-- 43_alu.md, ADD: the sum modulo 256 and the carry, both from the old operands; when x is 15 VF ends as the flag, which is
the spec's decision D17 (log 13). -/
def Obligations.AddWritesSumAndCarry : Prop :=
  ∀ (x y : RegNum) (s : State), ∃ t, exec (.addReg x y) s = .next t ∧
    (x ≠ VF → (readReg t x).toNat = ((readReg s x).toNat + (readReg s y).toNat) % 256) ∧
    (readReg t VF).toNat = (if 255 < (readReg s x).toNat + (readReg s y).toNat then 1 else 0) ∧
    PcPlus 2 s t ∧ Frame { regs := [x, VF] } s t

/-- 43_alu.md, SUB and SUBN: the difference modulo 256 and the not-borrow flag, both from the old operands; the flag of SUBN
is derived by the spec from that of SUB (G8), the order when x is 15 is its decision D17 (log 13). -/
def Obligations.SubtractWritesNotBorrow : Prop :=
  ∀ (x y : RegNum) (s : State),
    (∃ t, exec (.sub x y) s = .next t ∧
      (x ≠ VF → (readReg t x).toNat = ((readReg s x).toNat + 256 - (readReg s y).toNat) % 256) ∧
      (readReg t VF).toNat = (if (readReg s y).toNat ≤ (readReg s x).toNat then 1 else 0) ∧
      PcPlus 2 s t ∧ Frame { regs := [x, VF] } s t) ∧
    (∃ t, exec (.subn x y) s = .next t ∧
      (x ≠ VF → (readReg t x).toNat = ((readReg s y).toNat + 256 - (readReg s x).toNat) % 256) ∧
      (readReg t VF).toNat = (if (readReg s x).toNat ≤ (readReg s y).toNat then 1 else 0) ∧
      PcPlus 2 s t ∧ Frame { regs := [x, VF] } s t)

/-- 43_alu.md, SHR and SHL: Vx shifted in place by one and VF the bit shifted out; that Vy plays no part is the spec's
decision D15, the order when x is 15 its decision D17 (log 13). -/
def Obligations.ShiftsWriteTheBitShiftedOut : Prop :=
  ∀ (x y : RegNum) (s : State),
    (∃ t, exec (.shr x y) s = .next t ∧
      (x ≠ VF → (readReg t x).toNat = (readReg s x).toNat / 2) ∧
      (readReg t VF).toNat = (readReg s x).toNat % 2 ∧ PcPlus 2 s t ∧ Frame { regs := [x, VF] } s t) ∧
    (∃ t, exec (.shl x y) s = .next t ∧
      (x ≠ VF → (readReg t x).toNat = 2 * (readReg s x).toNat % 256) ∧
      (readReg t VF).toNat = (readReg s x).toNat / 128 ∧ PcPlus 2 s t ∧ Frame { regs := [x, VF] } s t)

/-- 10_state.md, VF as flag register: the six instructions with a flag leave VF at 0 or 1, and no other instruction changes
VF unless VF is a destination of its own (x = 15). The choices behind it are D17, D18 (log 13). -/
def Obligations.FlagOnlyFromSixInstructions : Prop :=
  ∀ (i : Instr) (s t : State), exec i s = .next t →
    (i.tag ∈ [OpcodeTag.ADD_REG, .SUB, .SUBN, .SHR, .SHL, .DRW] → readReg t VF = 0 ∨ readReg t VF = 1) ∧
    (i.tag ∉ [OpcodeTag.ADD_REG, .SUB, .SUBN, .SHR, .SHL, .DRW] →
      readReg t VF = readReg s VF ∨ VF ∈ (footprint i s).regs)

/-! ### Index register and random -/

/-- R135: `LD I, nnn`. -/
def Obligations.IndexLoad : Prop :=
  ∀ (nnn : Addr12) (s : State), ∃ t, exec (.ldI nnn) s = .next t ∧
    t.i.toNat = nnn.toNat ∧ PcPlus 2 s t ∧ Frame { index := true } s t

/-- 44_index.md, `ADD I, Vx`: no flag; the wrap at 16 bits and the absence of a 12-bit mask are the spec's decision D19
(log 13). -/
def Obligations.IndexAddWrapsAtSixteenBits : Prop :=
  ∀ (x : RegNum) (s : State), ∃ t, exec (.addI x) s = .next t ∧
    t.i.toNat = (s.i.toNat + (readReg s x).toNat) % 65536 ∧ PcPlus 2 s t ∧ Frame { index := true } s t

/-- R140: a STEP(rnd) that executes `RND Vx, nn` leaves rnd & nn in Vx, for every one of the 256 bytes rnd. -/
def Obligations.RandomByteUnderMask : Prop :=
  ∀ (x : RegNum) (nn rnd : Byte) (s : State), fetchDecode s = .ok (.rnd x nn) →
    ∃ t, instrStepWith rnd s = .next t ∧
      (∀ k, (readReg t x).getLsbD k = (rnd.getLsbD k && nn.getLsbD k)) ∧ PcPlus 2 s t ∧ Frame { regs := [x] } s t

/-- 45_random.md with the model's random source (log 3): RND takes the first byte the source has laid out, else the next
free byte, and takes it once. It holds whatever the free bytes are. -/
def Obligations.RandomSourceIsConsumed : Prop :=
  ∀ (x : RegNum) (nn : Byte) (s : State), ∃ t, exec (.rnd x nn) s = .next t ∧
    (∀ b bs, s.rndSupply = b :: bs → readReg t x = b &&& nn ∧ t.rndSupply = bs ∧ t.draws = s.draws) ∧
    (s.rndSupply = [] → readReg t x = Config.randomByte s.draws &&& nn ∧ t.rndSupply = [] ∧ t.draws = s.draws + 1) ∧
    PcPlus 2 s t ∧ Frame { regs := [x], random := true } s t

/-! ### Framebuffer -/

/-- R146: `CLS` turns every pixel off and writes no register. -/
def Obligations.ClearTurnsEveryPixelOff : Prop :=
  ∀ s : State, ∃ t, exec .cls s = .next t ∧ (∀ row col, pixel t.fb row col = false) ∧
    PcPlus 2 s t ∧ Frame { screen := true } s t

/-- 46_draw_and_clear.md, DRW: when its n bytes exist, exactly the pixels under a drawn 1-pixel of the sprite are inverted;
the origin is (V[y] mod 32, V[x] mod 64), pixels past an edge are dropped (the spec's decision D14), bit 7 is the leftmost
pixel (G4), n = 0 draws nothing and needs no memory (D24; log 14). -/
def Obligations.DrawInvertsTheClippedSprite : Prop :=
  ∀ (x y : RegNum) (n : Nibble) (s : State), AccessFits s.i.toNat n.toNat → ∃ t, exec (.drw x y n) s = .next t ∧
    (∀ row col,
      (spriteCovers s.mem s.i.toNat n.toNat ((readReg s y).toNat % 32) ((readReg s x).toNat % 64) row col →
        pixel t.fb row col = !pixel s.fb row col) ∧
      (¬ spriteCovers s.mem s.i.toNat n.toNat ((readReg s y).toNat % 32) ((readReg s x).toNat % 64) row col →
        pixel t.fb row col = pixel s.fb row col)) ∧
    PcPlus 2 s t ∧ Frame { regs := [VF], screen := true } s t

/-- 46_draw_and_clear.md, collision: after every DRW, VF is 1 when some pixel that was 1 is now 0, which is when a drawn
1-pixel of the sprite lands on a pixel that is 1, and 0 otherwise. Which pixels are drawn rests on the spec's decision D14
(clipping) and which bit is which column on its general knowledge G4 (both log 14). -/
def Obligations.CollisionFlagExact : Prop :=
  ∀ (x y : RegNum) (n : Nibble) (s t : State), exec (.drw x y n) s = .next t →
    ((∃ row col, pixel s.fb row col = true ∧ pixel t.fb row col = false) → (readReg t VF).toNat = 1) ∧
    ((¬ ∃ row col, pixel s.fb row col = true ∧ pixel t.fb row col = false) → (readReg t VF).toNat = 0) ∧
    ((∃ row col, pixel s.fb row col = true ∧ pixel t.fb row col = false) ↔
      ∃ row col, pixel s.fb row col = true ∧
        spriteCovers s.mem s.i.toNat n.toNat ((readReg s y).toNat % 32) ((readReg s x).toNat % 64) row col)

/-- The source's property S5 (95_test_vectors.md), in general: a DRW repeated at the same place restores the framebuffer, and
the second draw collides exactly when the first one turned a pixel on. When x or y is VF the first draw overwrites a
coordinate of the second, so there is no repetition at the same place; that form is in DrawInvertsTheClippedSprite and
CollisionFlagExact. -/
def Obligations.DrawTwiceRestores : Prop :=
  ∀ (x y : RegNum) (n : Nibble) (s t : State), x ≠ VF → y ≠ VF → exec (.drw x y n) s = .next t →
    ∃ u, exec (.drw x y n) t = .next u ∧ u.fb = s.fb ∧
      ((readReg u VF).toNat = 1 ↔ ∃ row col, pixel s.fb row col = false ∧ pixel t.fb row col = true)

/-! ### Keypad and timers -/

/-- R155, R156: SKP and SKNP test the key named by the low nibble of Vx. -/
def Obligations.KeySkips : Prop :=
  ∀ (x : RegNum) (k : Nibble) (s : State), k.toNat = (readReg s x).toNat % 16 →
    (∃ t, exec (.skp x) s = .next t ∧ Frame {} s t ∧
      (keyDown s k = true → PcPlus 4 s t) ∧ (keyDown s k = false → PcPlus 2 s t)) ∧
    (∃ t, exec (.sknp x) s = .next t ∧ Frame {} s t ∧
      (keyDown s k = false → PcPlus 4 s t) ∧ (keyDown s k = true → PcPlus 2 s t))

/-- 47_keypad.md, `LD Vx, K`: an error in the default mode; in `wait` mode the lowest key down goes to Vx, and with no key
down the state stays whole. The instruction and both behaviours rest on the spec's decision D12 (logs 4, 20). -/
def Obligations.KeyWaitByMode : Prop :=
  ∀ (x : RegNum) (s : State),
    (s.keywaitMode = .unimplemented → exec (.ldVxK x) s = .fault (.unimplementedOpcode .LD_VX_K)) ∧
    (s.keywaitMode = .wait → (∀ k, keyDown s k = false) → exec (.ldVxK x) s = .next s) ∧
    (∀ k : Nibble, s.keywaitMode = .wait → keyDown s k = true → (∀ j, keyDown s j = true → k.toNat ≤ j.toNat) →
      ∃ t, exec (.ldVxK x) s = .next t ∧ (readReg t x).toNat = k.toNat ∧ PcPlus 2 s t ∧ Frame { regs := [x] } s t)

/-- R160, R161, R162: the three timer copies. -/
def Obligations.TimerCopies : Prop :=
  ∀ (x : RegNum) (s : State),
    (∃ t, exec (.ldVxDt x) s = .next t ∧ readReg t x = s.dt ∧ PcPlus 2 s t ∧ Frame { regs := [x] } s t) ∧
    (∃ t, exec (.ldDtVx x) s = .next t ∧ t.dt = readReg s x ∧ PcPlus 2 s t ∧ Frame { delay := true } s t) ∧
    (∃ t, exec (.ldStVx x) s = .next t ∧ t.st = readReg s x ∧ PcPlus 2 s t ∧ Frame { sound := true } s t)

/-- R36: TICK takes 1 from each timer above 0, leaves one at 0, never fails and changes nothing else, pc included. -/
def Obligations.TickCountsDownToZero : Prop :=
  ∀ s : State, ∃ t, perform .tick s = .next t ∧
    (0 < s.dt.toNat → t.dt.toNat + 1 = s.dt.toNat) ∧ (s.dt.toNat = 0 → t.dt.toNat = 0) ∧
    (0 < s.st.toNat → t.st.toNat + 1 = s.st.toNat) ∧ (s.st.toNat = 0 → t.st.toNat = 0) ∧
    t.pc = s.pc ∧ Frame { delay := true, sound := true } s t

/-- 10_state.md and 60_exceptions.md ("STEP never decrements a timer"): no instruction changes DT but LD DT, none changes ST
but LD ST, and those write Vx. -/
def Obligations.InstructionsNeverTick : Prop :=
  ∀ (i : Instr) (s t : State), exec i s = .next t →
    (t.dt = s.dt ∨ ∃ x, i = .ldDtVx x ∧ t.dt = readReg s x) ∧
    (t.st = s.st ∨ ∃ x, i = .ldStVx x ∧ t.st = readReg s x)

/-! ### Font, BCD, block transfers -/

/-- 49_font_bcd_block.md, `LD F, Vx`: I is five times the low nibble of Vx, which is the spec's decision D25 (log 15); it
never fails and memory is unchanged. -/
def Obligations.FontAddress : Prop :=
  ∀ (x : RegNum) (s : State), ∃ t, exec (.ldF x) s = .next t ∧
    t.i.toNat = 5 * ((readReg s x).toNat % 16) ∧ PcPlus 2 s t ∧ Frame { index := true } s t

/-- 49_font_bcd_block.md, `LD B, Vx`: three decimal digits that make up Vx, from address I upward and nowhere else, in
a memory in canonical form (an invariant, StepKeepsTheInvariant); out of range it ends in the error with the smallest
missing address, which is the spec's decision D8 (logs 9, 10). -/
def Obligations.BcdStoresThreeDigits : Prop :=
  ∀ (x : RegNum) (s : State),
    (s.mem.wf = true → AccessFits s.i.toNat 3 → ∃ t, exec (.ldB x) s = .next t ∧
      (readReg s x).toNat = 100 * (readByte t.mem s.i.toNat).toNat + 10 * (readByte t.mem (s.i.toNat + 1)).toNat +
        (readByte t.mem (s.i.toNat + 2)).toNat ∧
      (readByte t.mem (s.i.toNat + 1)).toNat ≤ 9 ∧ (readByte t.mem (s.i.toNat + 2)).toNat ≤ 9 ∧
      PcPlus 2 s t ∧ Frame { memAt := s.i.toNat, memLen := 3 } s t) ∧
    (¬ AccessFits s.i.toNat 3 → exec (.ldB x) s = .fault (.memoryOutOfBounds (reportedAddress s.i.toNat)))

/-- 49_font_bcd_block.md, `LD [I], Vx`: V0 to Vx inclusive to I upward, in a memory in canonical form; that I is unchanged is the
spec's decision D26 (log 15); out of range it ends in the error with the smallest missing address (D8, logs 9, 10). -/
def Obligations.BlockStoreCopiesRegisters : Prop :=
  ∀ (x : RegNum) (s : State),
    (s.mem.wf = true → AccessFits s.i.toNat (x.toNat + 1) → ∃ t, exec (.stRegs x) s = .next t ∧
      (∀ r : RegNum, r.toNat ≤ x.toNat → readByte t.mem (s.i.toNat + r.toNat) = readReg s r) ∧
      PcPlus 2 s t ∧ Frame { memAt := s.i.toNat, memLen := x.toNat + 1 } s t) ∧
    (¬ AccessFits s.i.toNat (x.toNat + 1) →
      exec (.stRegs x) s = .fault (.memoryOutOfBounds (reportedAddress s.i.toNat)))

/-- 49_font_bcd_block.md, `LD Vx, [I]`: V0 to Vx inclusive from I upward, the other registers unchanged; that I is unchanged
is the spec's decision D26 (log 15); out of range it ends in the error with the smallest missing address (D8, logs 9, 10). -/
def Obligations.BlockLoadCopiesMemory : Prop :=
  ∀ (x : RegNum) (s : State),
    (AccessFits s.i.toNat (x.toNat + 1) → ∃ t, exec (.ldRegs x) s = .next t ∧
      (∀ r : RegNum, r.toNat ≤ x.toNat → readReg t r = readByte s.mem (s.i.toNat + r.toNat)) ∧
      (∀ r : RegNum, x.toNat < r.toNat → readReg t r = readReg s r) ∧
      PcPlus 2 s t ∧ Frame { regs := regsUpTo x } s t) ∧
    (¬ AccessFits s.i.toNat (x.toNat + 1) →
      exec (.ldRegs x) s = .fault (.memoryOutOfBounds (reportedAddress s.i.toNat)))

/-- 49_font_bcd_block.md and 20_memory.md together: what LD [I], Vx stores in a memory in canonical form, a later LD Vx, [I]
at the same I brings back, in any state that still has that memory. -/
def Obligations.BlockStoreThenLoadRestores : Prop :=
  ∀ (x : RegNum) (s t u : State), s.mem.wf = true → exec (.stRegs x) s = .next t → u.mem = t.mem → u.i = s.i →
    ∃ w, exec (.ldRegs x) u = .next w ∧
      ∀ r : RegNum, readReg w r = if r.toNat ≤ x.toNat then readReg s r else readReg u r

/-! ### Memory and fetch -/

/-- R53: the fetched word has the byte at pc as bits 15..8 and the byte at pc + 1 as bits 7..0. -/
def Obligations.FetchIsBigEndian : Prop :=
  ∀ s : State, s.pc.toNat + 1 < 4096 → ∃ w, fetch s = .ok w ∧
    w.toNat = (readByte s.mem s.pc.toNat).toNat * 256 + (readByte s.mem (s.pc.toNat + 1)).toNat

/-- 30_encoding.md, Fetch: out of range, a STEP raises MemoryOutOfBounds whatever the rest of the state; the reported address
is the spec's decision D8 (log 10). -/
def Obligations.FetchOutOfRangeFaults : Prop :=
  ∀ s : State, (4096 ≤ s.pc.toNat → instrStep s = .fault (.memoryOutOfBounds s.pc.toNat)) ∧
    (s.pc.toNat = 4095 → instrStep s = .fault (.memoryOutOfBounds 4096))

/-- 46_draw_and_clear.md, DRW out of range: it ends in the error with the smallest missing address; all n rows count,
clipped ones included (the spec's decisions D8, D24; logs 9, 10, 14). -/
def Obligations.DrawOutOfRangeFaults : Prop :=
  ∀ (x y : RegNum) (n : Nibble) (s : State), ¬ AccessFits s.i.toNat n.toNat →
    exec (.drw x y n) s = .fault (.memoryOutOfBounds (reportedAddress s.i.toNat))

/-- 20_memory.md, fetch coherence (the spec's decision D23, log 12): two neighbouring bytes that LD [I], Vx stores at the
address of the next instruction, in a memory in canonical form, are the word the next fetch reads. -/
def Obligations.StoreSeenByNextFetch : Prop :=
  ∀ (x k k' : RegNum) (s t : State), s.mem.wf = true → exec (.stRegs x) s = .next t → k'.toNat = k.toNat + 1 → k'.toNat ≤ x.toNat →
    t.pc.toNat = s.i.toNat + k.toNat →
    ∃ w, fetch t = .ok w ∧ w.toNat = (readReg s k).toNat * 256 + (readReg s k').toNat

/-- Memories in canonical form that read alike at every address are equal data. The canonical list is the model's own form
of the bytes of 20_memory.md (log 2). -/
def Obligations.CanonicalMemoryIsExtensional : Prop :=
  ∀ m m' : Memory, m.wf = true → m'.wf = true → (∀ a, readByte m a = readByte m' a) → m = m'

/-! ### Errors -/

/-- 60_exceptions.md, causes and priority: which instruction can end in which error; every other instruction cannot fail, and
with SP in 0..16 no instruction is refused. The reported address is the spec's decision D8 (log 10), the error of LD Vx, K
and its mode are D12 (log 4), and the refusal for SP above 16 is the model's choice (log 7). -/
def Obligations.OnlyTheseInstructionsFail : Prop :=
  ∀ (i : Instr) (s : State),
    (∀ f, exec i s = .fault f →
      (i.tag = .CALL ∧ f = .stackOverflow) ∨ (i.tag = .RET ∧ f = .stackUnderflow) ∨
      (i.tag = .LD_VX_K ∧ s.keywaitMode = .unimplemented ∧ f = .unimplementedOpcode .LD_VX_K) ∨
      (i.tag ∈ [OpcodeTag.DRW, .LD_B, .ST_REGS, .LD_REGS] ∧ f = .memoryOutOfBounds (reportedAddress s.i.toNat))) ∧
    (s.sp.toNat ≤ 16 → ∀ r, exec i s ≠ .refused r)

/-- 60_exceptions.md, MemoryOutOfBounds: the address a STEP reports is 4096, pc or I, and lies in 4096..65535 (the spec's
decision D8, log 10). -/
def Obligations.ReportedAddressRange : Prop :=
  ∀ (s : State) (a : Nat), instrStep s = .fault (.memoryOutOfBounds a) →
    4096 ≤ a ∧ a ≤ 65535 ∧ (a = 4096 ∨ a = s.pc.toNat ∨ a = s.i.toNat)

/-- 10_state.md, no record of an error: after an error, every further STEP raises the same error, whatever TICK and KEYWRITE
come between and whatever the random byte; and under a driver that only steps the core stays as it is for ever. That the
state after an execution error is the one before it is the spec's decision D7 (log 9). -/
def Obligations.ErrorsPersist : Prop :=
  ∀ (s : State) (f : Fault), instrStep s = .fault f → ∀ ops : List HostOp,
    (∀ op ∈ ops, op = .tick ∨ ∃ k b, op = .keyWrite k b) →
    ∃ t, performAll ops s = .next t ∧ instrStep t = .fault f ∧ (∀ rnd, instrStepWith rnd t = .fault f) ∧
      (t.script = [] → t.driver = .stepping → ∀ k, runOn k t = t)

/-! ### Decode -/

/-- 30_encoding.md, the encodings: decoding the word of a well-formed instruction gives it back with every operand, as a word
and as bytes with any bytes after it. -/
def Obligations.DecodeOfEncode : Prop :=
  ∀ i : Instr, i.wellFormed = true →
    decodeWord (encode i) = .ok i ∧ ∀ rest, decode (encodeBytes i ++ rest) = .ok (i, rest)

/-- The other direction: a word that decodes is the encoding of what it decodes to, which is well-formed; no two words share
an instruction and no bit is dropped. -/
def Obligations.EncodeOfDecode : Prop :=
  ∀ (w : Word) (i : Instr), decodeWord w = .ok i → i.wellFormed = true ∧ encode i = w

/-- 30_encoding.md, illegal encodings: decode rejects, with the raw word, exactly the words of family 8 with low nibble 8..D
or F, and those of families E and F whose low byte is in neither list. -/
def Obligations.IllegalWordsExactly : Prop :=
  ∀ w : Word, decodeWord w = .error (.unknownOpcode w) ↔
    (w.toNat / 4096 = 8 ∧ w.toNat % 16 ∈ [0x8, 0x9, 0xA, 0xB, 0xC, 0xD, 0xF]) ∨
    (w.toNat / 4096 = 14 ∧ w.toNat % 256 ∉ [0x9E, 0xA1]) ∨
    (w.toNat / 4096 = 15 ∧ w.toNat % 256 ∉ [0x07, 0x0A, 0x15, 0x18, 0x1E, 0x29, 0x33, 0x55, 0x65])

/-- 30_encoding.md, the opcode table: a word decodes to an instruction of the one row whose mask and match it meets (CLS and
RET before SYS), and to nothing when it meets none; so the rows are disjoint. -/
def Obligations.DecodeFollowsTheTable : Prop :=
  ∀ w : Word,
    (∀ i, decodeWord w = .ok i → ∀ tag : OpcodeTag, tag.selects w = true ↔ tag = i.tag) ∧
    (∀ e, decodeWord w = .error e → ∀ tag : OpcodeTag, tag.selects w = false)

/-- 95_test_vectors.md: some of the words written out there. -/
def Obligations.SampleWordsDecode : Prop :=
  decodeWord 0x00E0 = .ok .cls ∧ decodeWord 0x00E1 = .ok (.sys 0x0E1) ∧ decodeWord 0x1ABC = .ok (.jp 0xABC) ∧
  decodeWord 0x3A42 = .ok (.seImm 0xA 0x42) ∧ decodeWord 0x512F = .ok (.seReg 1 2 0xF) ∧
  decodeWord 0x6C5A = .ok (.ldImm 0xC 0x5A) ∧ decodeWord 0x8014 = .ok (.addReg 0 1) ∧
  decodeWord 0xAFFF = .ok (.ldI 0xFFF) ∧ decodeWord 0xC30F = .ok (.rnd 3 0x0F) ∧
  decodeWord 0xD015 = .ok (.drw 0 1 5) ∧ decodeWord 0xE59E = .ok (.skp 5) ∧ decodeWord 0xF107 = .ok (.ldVxDt 1) ∧
  decodeWord 0xF265 = .ok (.ldRegs 2) ∧ decodeWord 0x8128 = .error (.unknownOpcode 0x8128)

/-! ### The step and the host's operations -/

/-- 30_encoding.md, STEP: where the driver has lined up nothing else and only steps (log 5), a step is a STEP: a fetch error ends it, then a decode error
with the raw word, and otherwise it is the execution of the decoded instruction on the same state, nothing more. -/
def Obligations.StepRunsTheDecodedInstruction : Prop :=
  ∀ s : State, s.script = [] → s.driver = .stepping →
    (∀ f, fetch s = .error f → step s = .fault f) ∧
    (∀ w, fetch s = .ok w → decodeWord w = .error (.unknownOpcode w) → step s = .fault (.unknownOpcode w)) ∧
    (∀ w i, fetch s = .ok w → decodeWord w = .ok i → step s = exec i s)

/-- 10_state.md, serialisation, in the model's form (log 5): an operation the driver has lined up is performed whole, before
any later one and before the next instruction; after those, a driver with an endless order of its own has its next
operation performed, whatever that order is. A STEP(rnd) of any instruction but RND is its execution. -/
def Obligations.LinedUpOperationComesFirst : Prop :=
  (∀ (s : State) (op : HostOp) (rest : List HostOp), s.script = op :: rest →
    step s = perform op { s with script := rest }) ∧
  (∀ (s : State) (n : Nat), s.script = [] → s.driver = .free n →
    step s = perform (Config.driverOp n) { s with driver := .free (n + 1) }) ∧
  (∀ (s : State) (rnd : Byte) (i : Instr), fetchDecode s = .ok i → i.tag ≠ .RND → perform (.step rnd) s = exec i s)

/-- R37: KEYWRITE(k, b) sets KEY[k] to b and changes nothing else. -/
def Obligations.KeyWriteSetsOneFlag : Prop :=
  ∀ (k : Nibble) (b : Bool) (s : State), ∃ t, perform (.keyWrite k b) s = .next t ∧
    keyDown t k = b ∧ (∀ j, j ≠ k → keyDown t j = keyDown s j) ∧
    t.pc = s.pc ∧ Frame {} s { t with key := s.key }

/-- 10_state.md, the host's two observations: FBREAD changes nothing and returns the 2048 pixels, row by row; TIMERREAD
changes nothing and returns DT and ST. That these are all the host can see is the spec's decision D21 (log 16); that the
pixels come row by row is the model's choice (log 16). -/
def Obligations.HostReadsChangeNothing : Prop :=
  ∀ s : State, perform .fbRead s = .next s ∧ (fbRead s).length = 2048 ∧
    (∀ (row : Fin 32) (col : Fin 64), (fbRead s)[64 * row.val + col.val]? = some (pixel s.fb row col)) ∧
    perform .timerRead s = .next s ∧ timerRead s = (s.dt, s.st)

/-- 70_reset_and_hazards.md, LOAD: at most 3584 bytes are copied to 0x200 upward, in a memory in canonical form, and nothing
else changes; a longer image is an error with its length, which is the spec's decision D29 (log 17). -/
def Obligations.LoadCopiesTheImage : Prop :=
  ∀ (bytes : List Byte) (s : State),
    (s.mem.wf = true → bytes.length ≤ 3584 → ∃ t, perform (.load bytes) s = .next t ∧
      (∀ k (h : k < bytes.length), readByte t.mem (0x200 + k) = bytes[k]) ∧
      t.pc = s.pc ∧ Frame { memAt := 0x200, memLen := bytes.length } s t) ∧
    (3584 < bytes.length → perform (.load bytes) s = .fault (.programTooLarge bytes.length))

/-- 70_reset_and_hazards.md, RESET, from any state: pc is 0x200 and the call stack is empty (the source's own values); every
register, both timers, every pixel, every key flag and every byte of memory after the font is zero (the spec's decisions D1
to D6, log 1); the first 80 bytes are the font table (D10, log 2). What is no state of the core stays, by the model's choice:
KEYWAIT_MODE (log 4), the driver's order of operations (log 5) and the random source (log 3). -/
def Obligations.ResetClearsTheCore : Prop :=
  ∀ s : State, ∃ t, perform .reset s = .next t ∧ t.pc.toNat = 0x200 ∧ t.sp.toNat = 0 ∧ t.i.toNat = 0 ∧
    (∀ r, (readReg t r).toNat = 0) ∧ (∀ j : Fin 16, (t.stack[j.val]'j.isLt).toNat = 0) ∧
    t.dt.toNat = 0 ∧ t.st.toNat = 0 ∧
    (∀ row col, pixel t.fb row col = false) ∧ (∀ k, keyDown t k = false) ∧
    (List.range 20).map (readByte t.mem) =
      [0xF0, 0x90, 0x90, 0x90, 0xF0, 0x20, 0x60, 0x20, 0x20, 0x70, 0xF0, 0x10, 0xF0, 0x80, 0xF0, 0xF0, 0x10, 0xF0, 0x10, 0xF0] ∧
    (List.range 20).map (fun k => readByte t.mem (20 + k)) =
      [0x90, 0x90, 0xF0, 0x10, 0x10, 0xF0, 0x80, 0xF0, 0x10, 0xF0, 0xF0, 0x80, 0xF0, 0x90, 0xF0, 0xF0, 0x10, 0x20, 0x40, 0x40] ∧
    (List.range 20).map (fun k => readByte t.mem (40 + k)) =
      [0xF0, 0x90, 0xF0, 0x90, 0xF0, 0xF0, 0x90, 0xF0, 0x10, 0xF0, 0xF0, 0x90, 0xF0, 0x90, 0x90, 0xE0, 0x90, 0xE0, 0x90, 0xE0] ∧
    (List.range 20).map (fun k => readByte t.mem (60 + k)) =
      [0xF0, 0x80, 0x80, 0x80, 0xF0, 0xE0, 0x90, 0x90, 0x90, 0xE0, 0xF0, 0x80, 0xF0, 0x80, 0xF0, 0xF0, 0x80, 0xF0, 0x80, 0x80] ∧
    (∀ a, 80 ≤ a → (readByte t.mem a).toNat = 0) ∧ t.keywaitMode = s.keywaitMode ∧
    t.script = s.script ∧ t.driver = s.driver ∧ t.rndSupply = s.rndSupply ∧ t.draws = s.draws

/-! ### Whole-machine statements -/

/-- 10_state.md, the access table: whatever an instruction does not write by that table is unchanged by it. The table's rows
rest on the spec's decisions named at each instruction (logs 13 to 15). -/
def Obligations.EveryInstructionKeepsItsFrame : Prop :=
  ∀ (i : Instr) (s t : State), exec i s = .next t → Frame (footprint i s) s t

/-- The invariant holds after reset (70_reset_and_hazards.md, RESET). The canonical form of memory is the model's own (log 2),
the bound on SP rests on its reset value 0, that is, on the empty stack and its count (the spec's decision D3, logs 1, 7),
no entry is then live, and pc is the source's own 0x200. -/
def Obligations.ResetMeetsTheInvariant : Prop := State.reset.Inv

/-- Every operation keeps the invariant: canonical memory, SP in 0..16, live entries at most 0xFFE, pc at most 0x10FE
(10_state.md on pc and SP). The canonical form is the model's own (log 2); that SP counts entries is the spec's decision D3
(log 7), that an entry is the address of a CALL is D11 (log 8), and that JP V0 does not mask, so that pc reaches 0x10FE, is
D16 (log 13). -/
def Obligations.StepKeepsTheInvariant : Prop :=
  ∀ s t : State, s.Inv → step s = .next t → t.Inv

/-- 10_state.md and 48_timers.md ("A program can therefore not observe ST at all"): two runs that start alike but for ST stay
alike but for ST, and stop alike. That no instruction reads ST is the spec's decision D33. -/
def Obligations.SoundTimerIsUnobservable : Prop :=
  ∀ (k : Nat) (b : Byte) (s : State),
    (∀ t, Sys2Proof.core.run k s = .next t → ∃ c, Sys2Proof.core.run k (setSound b s) = .next (setSound c t)) ∧
    (∀ f, Sys2Proof.core.run k s = .fault f → Sys2Proof.core.run k (setSound b s) = .fault f) ∧
    (∀ r, Sys2Proof.core.run k s = .refused r → Sys2Proof.core.run k (setSound b s) = .refused r)

/-- 70_reset_and_hazards.md, the end of a run: a parked program stays as it is for any number of steps of a driver that only
steps, at any STEP(rnd), and it stays parked through TICK and KEYWRITE. Parking as the notion of a finished program is the
spec's decision D32 (log 21), the driver in State is the model's form (log 5). -/
def Obligations.ParkedProgramStays : Prop :=
  ∀ (s : State) (k : Nat), Parked s →
    (s.script = [] → s.driver = .stepping → Sys2Proof.core.run k s = .next s) ∧
    (∀ rnd, perform (.step rnd) s = .next s) ∧
    (∃ t, perform .tick s = .next t ∧ Parked t) ∧ ∀ key b, ∃ t, perform (.keyWrite key b) s = .next t ∧ Parked t
end

