-- ==== Sys2Proof/Laws/Decode.lean ====
section
/-!
SUPPORT. The fields of an encoded word, and a word from its fields (30_encoding.md R76, R77).
-/
namespace Sys2Proof

theorem opField_toNat (w : Word) : (opField w).toNat = w.toNat / 4096 := by
  have := w.isLt
  simp [opField, BitVec.extractLsb'_toNat, Nat.shiftRight_eq_div_pow]; omega

theorem xField_toNat (w : Word) : (xField w).toNat = w.toNat / 256 % 16 := by
  simp [xField, BitVec.extractLsb'_toNat, Nat.shiftRight_eq_div_pow]

theorem yField_toNat (w : Word) : (yField w).toNat = w.toNat / 16 % 16 := by
  simp [yField, BitVec.extractLsb'_toNat, Nat.shiftRight_eq_div_pow]

theorem nField_toNat (w : Word) : (nField w).toNat = w.toNat % 16 := by
  simp [nField, BitVec.extractLsb'_toNat]

theorem nnField_toNat (w : Word) : (nnField w).toNat = w.toNat % 256 := by
  simp [nnField, BitVec.extractLsb'_toNat]

theorem nnnField_toNat (w : Word) : (nnnField w).toNat = w.toNat % 4096 := by
  simp [nnnField, BitVec.extractLsb'_toNat]

/-- Concatenation is addition in the more significant bits (00_scope.md R8). -/
theorem append_toNat {m n : Nat} (a : BitVec m) (b : BitVec n) : (a ++ b).toNat = a.toNat * 2 ^ n + b.toNat := by
  rw [BitVec.toNat_append, ← Nat.shiftLeft_add_eq_or_of_lt b.isLt, Nat.shiftLeft_eq]

theorem formatNNN_toNat (op : Nibble) (nnn : Addr12) : (formatNNN op nnn).toNat = op.toNat * 4096 + nnn.toNat :=
  append_toNat op nnn

theorem formatXNN_toNat (op : Nibble) (x : RegNum) (nn : Byte) :
    (formatXNN op x nn).toNat = op.toNat * 4096 + x.toNat * 256 + nn.toNat := by
  have h1 : (formatXNN op x nn).toNat = op.toNat * 4096 + (x ++ nn).toNat := append_toNat op (x ++ nn)
  have h2 : (x ++ nn).toNat = x.toNat * 256 + nn.toNat := append_toNat x nn
  rw [h1, h2, Nat.add_assoc]

theorem formatXYN_toNat (op : Nibble) (x y : RegNum) (n : Nibble) :
    (formatXYN op x y n).toNat = op.toNat * 4096 + x.toNat * 256 + y.toNat * 16 + n.toNat := by
  have h1 : (formatXYN op x y n).toNat = op.toNat * 4096 + (x ++ (y ++ n)).toNat := append_toNat op (x ++ (y ++ n))
  have h2 : (x ++ (y ++ n)).toNat = x.toNat * 256 + (y ++ n).toNat := append_toNat x (y ++ n)
  have h3 : (y ++ n).toNat = y.toNat * 16 + n.toNat := append_toNat y n
  rw [h1, h2, h3]
  simp only [Nat.add_assoc]

@[simp] theorem opField_formatNNN (op : Nibble) (nnn : Addr12) : opField (formatNNN op nnn) = op := by
  have := nnn.isLt
  apply BitVec.eq_of_toNat_eq; rw [opField_toNat, formatNNN_toNat]; omega

@[simp] theorem nnnField_formatNNN (op : Nibble) (nnn : Addr12) : nnnField (formatNNN op nnn) = nnn := by
  have := nnn.isLt
  apply BitVec.eq_of_toNat_eq; rw [nnnField_toNat, formatNNN_toNat]; omega

@[simp] theorem opField_formatXNN (op : Nibble) (x : RegNum) (nn : Byte) : opField (formatXNN op x nn) = op := by
  have := nn.isLt
  have := x.isLt
  apply BitVec.eq_of_toNat_eq; rw [opField_toNat, formatXNN_toNat]; omega

@[simp] theorem xField_formatXNN (op : Nibble) (x : RegNum) (nn : Byte) : xField (formatXNN op x nn) = x := by
  have := nn.isLt
  have := x.isLt
  apply BitVec.eq_of_toNat_eq; rw [xField_toNat, formatXNN_toNat]; omega

@[simp] theorem nnField_formatXNN (op : Nibble) (x : RegNum) (nn : Byte) : nnField (formatXNN op x nn) = nn := by
  have := nn.isLt
  have := x.isLt
  apply BitVec.eq_of_toNat_eq; rw [nnField_toNat, formatXNN_toNat]; omega

@[simp] theorem opField_formatXYN (op : Nibble) (x y : RegNum) (n : Nibble) : opField (formatXYN op x y n) = op := by
  have := n.isLt
  have := y.isLt
  have := x.isLt
  apply BitVec.eq_of_toNat_eq; rw [opField_toNat, formatXYN_toNat]; omega

@[simp] theorem xField_formatXYN (op : Nibble) (x y : RegNum) (n : Nibble) : xField (formatXYN op x y n) = x := by
  have := n.isLt
  have := y.isLt
  have := x.isLt
  apply BitVec.eq_of_toNat_eq; rw [xField_toNat, formatXYN_toNat]; omega

@[simp] theorem yField_formatXYN (op : Nibble) (x y : RegNum) (n : Nibble) : yField (formatXYN op x y n) = y := by
  have := n.isLt
  have := y.isLt
  have := x.isLt
  apply BitVec.eq_of_toNat_eq; rw [yField_toNat, formatXYN_toNat]; omega

@[simp] theorem nField_formatXYN (op : Nibble) (x y : RegNum) (n : Nibble) : nField (formatXYN op x y n) = n := by
  have := n.isLt
  have := y.isLt
  have := x.isLt
  apply BitVec.eq_of_toNat_eq; rw [nField_toNat, formatXYN_toNat]; omega

/-- A word is its family and its low twelve bits. -/
theorem formatNNN_fields (w : Word) : formatNNN (opField w) (nnnField w) = w := by
  apply BitVec.eq_of_toNat_eq; rw [formatNNN_toNat, opField_toNat, nnnField_toNat]; omega

/-- A word is its family, x and low byte. -/
theorem formatXNN_fields (w : Word) : formatXNN (opField w) (xField w) (nnField w) = w := by
  apply BitVec.eq_of_toNat_eq; rw [formatXNN_toNat, opField_toNat, xField_toNat, nnField_toNat]; omega

/-- A word is its four nibbles. -/
theorem formatXYN_fields (w : Word) : formatXYN (opField w) (xField w) (yField w) (nField w) = w := by
  apply BitVec.eq_of_toNat_eq
  rw [formatXYN_toNat, opField_toNat, xField_toNat, yField_toNat, nField_toNat]; omega

theorem wordOfBytes_toNat (hi lo : Byte) : (wordOfBytes hi lo).toNat = hi.toNat * 256 + lo.toNat :=
  append_toNat hi lo

/-- Storing a word big-endian and reading it back gives the word (20_memory.md R53). -/
theorem wordOfBytes_bytesOfWord (w : Word) : wordOfBytes (w.extractLsb' 8 8) (w.extractLsb' 0 8) = w := by
  have := w.isLt
  apply BitVec.eq_of_toNat_eq
  rw [wordOfBytes_toNat]
  simp [BitVec.extractLsb'_toNat, Nat.shiftRight_eq_div_pow]; omega

/-- The low nibbles that family 0x8 rejects (30_encoding.md R90). -/
theorem decodeFamily8_eq_none (w : Word) :
    decodeFamily8 w = none ↔ (nField w).toNat ∈ [0x8, 0x9, 0xA, 0xB, 0xC, 0xD, 0xF] := by
  unfold decodeFamily8
  split
  case h_10 =>
    rw [eq_self_iff_true, true_iff]
    generalize nField w = n at *
    revert n; decide
  all_goals next h => simp [h]

/-- The low bytes that family 0xE rejects (30_encoding.md R90). -/
theorem decodeFamilyE_eq_none (w : Word) : decodeFamilyE w = none ↔ (nnField w).toNat ∉ [0x9E, 0xA1] := by
  unfold decodeFamilyE
  split
  case h_3 =>
    rw [eq_self_iff_true, true_iff]
    generalize nnField w = n at *
    revert n; decide +kernel
  all_goals next h => simp [h]

/-- The low bytes that family 0xF rejects (30_encoding.md R90). -/
theorem decodeFamilyF_eq_none (w : Word) :
    decodeFamilyF w = none ↔ (nnField w).toNat ∉ [0x07, 0x0A, 0x15, 0x18, 0x1E, 0x29, 0x33, 0x55, 0x65] := by
  unfold decodeFamilyF
  split
  case h_10 =>
    rw [eq_self_iff_true, true_iff]
    generalize nnField w = n at *
    revert n; decide +kernel
  all_goals next h => simp [h]

/-- The word-level decoder, with its rejection by name. -/
theorem decodeWord_ok_iff (w : Word) (i : Instr) : decodeWord w = .ok i ↔ decodeWord? w = some i := by
  unfold decodeWord; split <;> simp_all

end Sys2Proof
end

