-- ==== Sys2Proof/Laws/Memory.lean ====
section
/-!
SUPPORT. Memory: read after write, the canonical form, and what a bounds-checked access can do.
-/
namespace Sys2Proof.Machine

/-- The canonical form as a proposition about the list's cells. -/
theorem Memory.wf_iff (m : Memory) :
    m.wf = true ↔ m.Pairwise (fun c d => c.1 < d.1) ∧ ∀ c ∈ m, c.1 < 4096 ∧ c.2 ≠ resetByte c.1 := by
  simp only [Memory.wf, Bool.and_eq_true, decide_eq_true_eq, List.all_eq_true, bne_iff_ne]
  exact Iff.rfl

@[simp] theorem Memory.wf_nil : Memory.wf [] = true := rfl

theorem Memory.wf_tail {c : Host.Cell} {m : Memory} (h : Memory.wf (c :: m) = true) : m.wf = true := by
  rw [Memory.wf_iff] at *
  exact ⟨(List.pairwise_cons.1 h.1).2, fun d hd => h.2 d (List.mem_cons_of_mem _ hd)⟩

/-- Below every listed address a memory reads as its reset contents. -/
theorem readByte_of_lt {m : Memory} {a : Nat} (h : ∀ c ∈ m, a < c.1) : readByte m a = resetByte a := by
  induction m with
  | nil => rfl
  | cons c m ih =>
    have := h c List.mem_cons_self
    simp only [readByte, show ¬ c.1 = a by omega, if_false]
    exact ih fun d hd => h d (List.mem_cons_of_mem _ hd)

theorem readByte_writeByte {m : Memory} (hm : m.Pairwise (fun c d => c.1 < d.1)) (a a' : Nat) (b : Byte) :
    readByte (writeByte m a b) a' = if a' = a then b else readByte m a' := by
  induction m with
  | nil => by_cases h : a' = a <;> by_cases hb : b = resetByte a <;> simp_all [writeByte, readByte, eq_comm]
  | cons c m ih =>
    have hm' := List.pairwise_cons.1 hm
    simp only [writeByte]
    split
    · next hlt =>
      have hall : readByte (c :: m) a = resetByte a := by
        refine readByte_of_lt fun d hd => ?_
        rcases List.mem_cons.1 hd with rfl | hd
        · exact hlt
        · exact hlt.trans (hm'.1 d hd)
      split
      · next hb => by_cases h : a' = a
                   · subst h; simp [hall, hb]
                   · simp [h]
      · by_cases h : a' = a
        · subst h; simp [readByte]
        · rw [readByte]; simp [h, Ne.symm h]
    · split
      · next _ heq =>
        subst heq
        split
        · next hb =>
          by_cases h : a' = c.1
          · subst h; simp [hb, readByte_of_lt (fun d hd => hm'.1 d hd)]
          · simp [readByte, h, Ne.symm h]
        · by_cases h : a' = c.1
          · subst h; simp [readByte]
          · simp [readByte, h, Ne.symm h]
      · next hlt hne =>
        simp only [readByte, ih hm'.2]
        by_cases h : c.1 = a'
        · have : a' ≠ a := by omega
          simp [h, this]
        · simp [h]

/-- A cell of the written memory is the written one or an old one. -/
theorem mem_writeByte {m : Memory} {a : Nat} {b : Byte} {c : Host.Cell} (h : c ∈ writeByte m a b) :
    (c = (a, b) ∧ b ≠ resetByte a) ∨ c ∈ m := by
  induction m with
  | nil => simp only [writeByte] at h; split at h <;> simp_all
  | cons d m ih =>
    simp only [writeByte] at h
    split at h
    · split at h
      · exact .inr h
      · rcases List.mem_cons.1 h with rfl | h
        · exact .inl ⟨rfl, ‹_›⟩
        · exact .inr h
    · split at h
      · split at h
        · exact .inr (List.mem_cons_of_mem _ h)
        · rcases List.mem_cons.1 h with rfl | h
          · exact .inl ⟨rfl, ‹_›⟩
          · exact .inr (List.mem_cons_of_mem _ h)
      · rcases List.mem_cons.1 h with rfl | h
        · exact .inr List.mem_cons_self
        · rcases ih h with h | h
          · exact .inl h
          · exact .inr (List.mem_cons_of_mem _ h)

theorem pairwise_writeByte {m : Memory} (hm : m.Pairwise (fun c d => c.1 < d.1)) (a : Nat) (b : Byte) :
    (writeByte m a b).Pairwise (fun c d => c.1 < d.1) := by
  induction m with
  | nil => simp only [writeByte]; split <;> simp
  | cons c m ih =>
    have hm' := List.pairwise_cons.1 hm
    simp only [writeByte]
    split
    · next hlt =>
      split
      · exact hm
      · refine List.pairwise_cons.2 ⟨fun d hd => ?_, hm⟩
        rcases List.mem_cons.1 hd with rfl | hd
        · exact hlt
        · exact hlt.trans (hm'.1 d hd)
    · split
      · next _ heq =>
        subst heq
        split
        · exact hm'.2
        · exact List.pairwise_cons.2 ⟨hm'.1, hm'.2⟩
      · next hlt hne =>
        refine List.pairwise_cons.2 ⟨fun d hd => ?_, ih hm'.2⟩
        rcases mem_writeByte hd with ⟨rfl, _⟩ | hd
        · show c.1 < a; omega
        · exact hm'.1 d hd

/-- Writing an existing address keeps the canonical form. -/
theorem Memory.wf_writeByte {m : Memory} (hm : m.wf = true) {a : Nat} (ha : a < 4096) (b : Byte) :
    Memory.wf (writeByte m a b) = true := by
  rw [Memory.wf_iff] at *
  refine ⟨pairwise_writeByte hm.1 a b, fun c hc => ?_⟩
  rcases mem_writeByte hc with ⟨rfl, hb⟩ | hc
  · exact ⟨ha, hb⟩
  · exact hm.2 c hc

/-- Writing existing addresses keeps the canonical form. -/
theorem Memory.wf_writeBytes {m : Memory} (hm : m.wf = true) {a : Nat} (bs : List Byte) (ha : a + bs.length ≤ 4096) :
    Memory.wf (writeBytes m a bs) = true := by
  induction bs generalizing m a with
  | nil => exact hm
  | cons b bs ih =>
    simp only [List.length_cons] at ha
    exact ih (Memory.wf_writeByte hm (by omega) b) (by omega)

theorem pairwise_writeBytes {m : Memory} (hm : m.Pairwise (fun c d => c.1 < d.1)) (a : Nat) (bs : List Byte) :
    (writeBytes m a bs).Pairwise (fun c d => c.1 < d.1) := by
  induction bs generalizing m a with
  | nil => exact hm
  | cons b bs ih => exact ih (pairwise_writeByte hm a b) _

/-- Read after write: the written bytes by ascending address, every other byte as before. -/
theorem readByte_writeBytes {m : Memory} (hm : m.Pairwise (fun c d => c.1 < d.1)) (a : Nat) (bs : List Byte) (a' : Nat) :
    readByte (writeBytes m a bs) a' =
      if h : a ≤ a' ∧ a' < a + bs.length then bs[a' - a]'(by omega) else readByte m a' := by
  induction bs generalizing m a with
  | nil => simp [writeBytes]
  | cons b bs ih =>
    rw [writeBytes, ih (pairwise_writeByte hm a b), readByte_writeByte hm]
    simp only [List.length_cons]
    by_cases h1 : a + 1 ≤ a' ∧ a' < a + 1 + bs.length
    · have h2 : a ≤ a' ∧ a' < a + (bs.length + 1) := by omega
      have h3 : a' - a = (a' - (a + 1)) + 1 := by omega
      simp [h1, h2, h3]
    · by_cases h2 : a' = a
      · subst h2; simp
      · have h3 : ¬ (a ≤ a' ∧ a' < a + (bs.length + 1)) := by omega
        rw [dif_neg h1, dif_neg h3, if_neg h2]

/-- The k-th byte written reads back. -/
theorem readByte_writeBytes_at {m : Memory} (hm : m.wf = true) (a : Nat) (bs : List Byte) (k : Nat) (h : k < bs.length) :
    readByte (writeBytes m a bs) (a + k) = bs[k] := by
  rw [readByte_writeBytes ((Memory.wf_iff m).1 hm).1, dif_pos ⟨by omega, by omega⟩]
  simp

/-! ### Bounds -/

/-- The smallest missing address of an access is its base or 4096 (60_exceptions.md R176). -/
theorem firstOutOfRange_eq (a n : Nat) :
    firstOutOfRange a n = if n = 0 ∨ a + n ≤ 4096 then none else some (if 4096 ≤ a then a else 4096) := by
  unfold firstOutOfRange Config.memSize
  split
  · next h =>
    simp only [List.find?_eq_none, List.mem_map, List.mem_range]
    rintro b ⟨k, hk, rfl⟩
    simp; omega
  · next h =>
    rw [List.find?_eq_some_iff_append]
    refine ⟨by split <;> simp_all, ?_⟩
    split
    · next ha =>
      refine ⟨[], (List.range (n - 1)).map (fun k => a + (k + 1)), ?_, by simp⟩
      obtain ⟨m, rfl⟩ : ∃ m, n = m + 1 := ⟨n - 1, by omega⟩
      simp [List.range_succ_eq_map, Function.comp_def]
    · next ha =>
      refine ⟨(List.range (4096 - a)).map (fun k => a + k), (List.range (a + n - 4097)).map (fun k => 4097 + k), ?_, ?_⟩
      · have e : n = (4096 - a) + (1 + (a + n - 4097)) := by omega
        rw [e, List.range_add, List.map_append, List.map_map, Nat.add_comm 1 (a + n - 4097), List.range_succ_eq_map,
          List.map_cons, List.map_map]
        refine congrArg₂ (· ++ ·) rfl (congrArg₂ List.cons ?_ ?_)
        · show a + (4096 - a + 0) = 4096
          omega
        · have e2 : a + (4096 - a + (a + n - 4097 + 1)) - 4097 = a + n - 4097 := by omega
          rw [e2]
          refine List.map_congr_left fun k _ => ?_
          show a + (4096 - a + (k + 1)) = 4097 + k
          omega
      · simp; omega

/-- MemRead: the bytes when all addresses exist, else the error with the smallest missing one (00_scope.md R10). -/
theorem memRead_eq (m : Memory) (a n : Nat) :
    memRead m a n = if n = 0 ∨ a + n ≤ 4096 then .ok (readBytes m a n)
      else .error (.memoryOutOfBounds (if 4096 ≤ a then a else 4096)) := by
  rw [memRead, firstOutOfRange_eq]; split <;> simp_all

/-- MemWrite: all of the bytes, or none and the error (00_scope.md R11). -/
theorem memWrite_eq (m : Memory) (a : Nat) (bs : List Byte) :
    memWrite m a bs = if bs.length = 0 ∨ a + bs.length ≤ 4096 then .ok (writeBytes m a bs)
      else .error (.memoryOutOfBounds (if 4096 ≤ a then a else 4096)) := by
  rw [memWrite, firstOutOfRange_eq]; split <;> simp_all

@[simp] theorem readBytes_length (m : Memory) (a n : Nat) : (readBytes m a n).length = n := by simp [readBytes]

@[simp] theorem readBytes_getElem (m : Memory) (a n k : Nat) (h : k < (readBytes m a n).length) :
    (readBytes m a n)[k] = readByte m (a + k) := by simp [readBytes]

end Sys2Proof.Machine
end

