-- ==== Sys2Proof/Laws/State.lean ====
section
/-!
SUPPORT. What every named update of the state does to every field: one lemma per field per update.
-/
namespace Sys2Proof.Machine

/-! ### writeReg -/

@[simp] theorem writeReg_i (r : RegNum) (b : Byte) (s : State) : (writeReg r b s).i = s.i := rfl
@[simp] theorem writeReg_pc (r : RegNum) (b : Byte) (s : State) : (writeReg r b s).pc = s.pc := rfl
@[simp] theorem writeReg_sp (r : RegNum) (b : Byte) (s : State) : (writeReg r b s).sp = s.sp := rfl
@[simp] theorem writeReg_stack (r : RegNum) (b : Byte) (s : State) : (writeReg r b s).stack = s.stack := rfl
@[simp] theorem writeReg_dt (r : RegNum) (b : Byte) (s : State) : (writeReg r b s).dt = s.dt := rfl
@[simp] theorem writeReg_st (r : RegNum) (b : Byte) (s : State) : (writeReg r b s).st = s.st := rfl
@[simp] theorem writeReg_fb (r : RegNum) (b : Byte) (s : State) : (writeReg r b s).fb = s.fb := rfl
@[simp] theorem writeReg_key (r : RegNum) (b : Byte) (s : State) : (writeReg r b s).key = s.key := rfl
@[simp] theorem writeReg_mem (r : RegNum) (b : Byte) (s : State) : (writeReg r b s).mem = s.mem := rfl
@[simp] theorem writeReg_keywaitMode (r : RegNum) (b : Byte) (s : State) : (writeReg r b s).keywaitMode = s.keywaitMode := rfl
@[simp] theorem writeReg_script (r : RegNum) (b : Byte) (s : State) : (writeReg r b s).script = s.script := rfl
@[simp] theorem writeReg_driver (r : RegNum) (b : Byte) (s : State) : (writeReg r b s).driver = s.driver := rfl
@[simp] theorem writeReg_rndSupply (r : RegNum) (b : Byte) (s : State) : (writeReg r b s).rndSupply = s.rndSupply := rfl
@[simp] theorem writeReg_draws (r : RegNum) (b : Byte) (s : State) : (writeReg r b s).draws = s.draws := rfl

/-! ### setPc -/

@[simp] theorem setPc_v (a : Word) (s : State) : (setPc a s).v = s.v := rfl
@[simp] theorem setPc_i (a : Word) (s : State) : (setPc a s).i = s.i := rfl
@[simp] theorem setPc_pc (a : Word) (s : State) : (setPc a s).pc = a := rfl
@[simp] theorem setPc_sp (a : Word) (s : State) : (setPc a s).sp = s.sp := rfl
@[simp] theorem setPc_stack (a : Word) (s : State) : (setPc a s).stack = s.stack := rfl
@[simp] theorem setPc_dt (a : Word) (s : State) : (setPc a s).dt = s.dt := rfl
@[simp] theorem setPc_st (a : Word) (s : State) : (setPc a s).st = s.st := rfl
@[simp] theorem setPc_fb (a : Word) (s : State) : (setPc a s).fb = s.fb := rfl
@[simp] theorem setPc_key (a : Word) (s : State) : (setPc a s).key = s.key := rfl
@[simp] theorem setPc_mem (a : Word) (s : State) : (setPc a s).mem = s.mem := rfl
@[simp] theorem setPc_keywaitMode (a : Word) (s : State) : (setPc a s).keywaitMode = s.keywaitMode := rfl
@[simp] theorem setPc_script (a : Word) (s : State) : (setPc a s).script = s.script := rfl
@[simp] theorem setPc_driver (a : Word) (s : State) : (setPc a s).driver = s.driver := rfl
@[simp] theorem setPc_rndSupply (a : Word) (s : State) : (setPc a s).rndSupply = s.rndSupply := rfl
@[simp] theorem setPc_draws (a : Word) (s : State) : (setPc a s).draws = s.draws := rfl

/-! ### advance -/

@[simp] theorem advance_v (s : State) : (advance s).v = s.v := rfl
@[simp] theorem advance_i (s : State) : (advance s).i = s.i := rfl
@[simp] theorem advance_pc (s : State) : (advance s).pc = s.pc + 2 := rfl
@[simp] theorem advance_sp (s : State) : (advance s).sp = s.sp := rfl
@[simp] theorem advance_stack (s : State) : (advance s).stack = s.stack := rfl
@[simp] theorem advance_dt (s : State) : (advance s).dt = s.dt := rfl
@[simp] theorem advance_st (s : State) : (advance s).st = s.st := rfl
@[simp] theorem advance_fb (s : State) : (advance s).fb = s.fb := rfl
@[simp] theorem advance_key (s : State) : (advance s).key = s.key := rfl
@[simp] theorem advance_mem (s : State) : (advance s).mem = s.mem := rfl
@[simp] theorem advance_keywaitMode (s : State) : (advance s).keywaitMode = s.keywaitMode := rfl
@[simp] theorem advance_script (s : State) : (advance s).script = s.script := rfl
@[simp] theorem advance_driver (s : State) : (advance s).driver = s.driver := rfl
@[simp] theorem advance_rndSupply (s : State) : (advance s).rndSupply = s.rndSupply := rfl
@[simp] theorem advance_draws (s : State) : (advance s).draws = s.draws := rfl

/-! ### setIndex -/

@[simp] theorem setIndex_v (a : Word) (s : State) : (setIndex a s).v = s.v := rfl
@[simp] theorem setIndex_i (a : Word) (s : State) : (setIndex a s).i = a := rfl
@[simp] theorem setIndex_pc (a : Word) (s : State) : (setIndex a s).pc = s.pc := rfl
@[simp] theorem setIndex_sp (a : Word) (s : State) : (setIndex a s).sp = s.sp := rfl
@[simp] theorem setIndex_stack (a : Word) (s : State) : (setIndex a s).stack = s.stack := rfl
@[simp] theorem setIndex_dt (a : Word) (s : State) : (setIndex a s).dt = s.dt := rfl
@[simp] theorem setIndex_st (a : Word) (s : State) : (setIndex a s).st = s.st := rfl
@[simp] theorem setIndex_fb (a : Word) (s : State) : (setIndex a s).fb = s.fb := rfl
@[simp] theorem setIndex_key (a : Word) (s : State) : (setIndex a s).key = s.key := rfl
@[simp] theorem setIndex_mem (a : Word) (s : State) : (setIndex a s).mem = s.mem := rfl
@[simp] theorem setIndex_keywaitMode (a : Word) (s : State) : (setIndex a s).keywaitMode = s.keywaitMode := rfl
@[simp] theorem setIndex_script (a : Word) (s : State) : (setIndex a s).script = s.script := rfl
@[simp] theorem setIndex_driver (a : Word) (s : State) : (setIndex a s).driver = s.driver := rfl
@[simp] theorem setIndex_rndSupply (a : Word) (s : State) : (setIndex a s).rndSupply = s.rndSupply := rfl
@[simp] theorem setIndex_draws (a : Word) (s : State) : (setIndex a s).draws = s.draws := rfl

/-! ### setDelay -/

@[simp] theorem setDelay_v (b : Byte) (s : State) : (setDelay b s).v = s.v := rfl
@[simp] theorem setDelay_i (b : Byte) (s : State) : (setDelay b s).i = s.i := rfl
@[simp] theorem setDelay_pc (b : Byte) (s : State) : (setDelay b s).pc = s.pc := rfl
@[simp] theorem setDelay_sp (b : Byte) (s : State) : (setDelay b s).sp = s.sp := rfl
@[simp] theorem setDelay_stack (b : Byte) (s : State) : (setDelay b s).stack = s.stack := rfl
@[simp] theorem setDelay_dt (b : Byte) (s : State) : (setDelay b s).dt = b := rfl
@[simp] theorem setDelay_st (b : Byte) (s : State) : (setDelay b s).st = s.st := rfl
@[simp] theorem setDelay_fb (b : Byte) (s : State) : (setDelay b s).fb = s.fb := rfl
@[simp] theorem setDelay_key (b : Byte) (s : State) : (setDelay b s).key = s.key := rfl
@[simp] theorem setDelay_mem (b : Byte) (s : State) : (setDelay b s).mem = s.mem := rfl
@[simp] theorem setDelay_keywaitMode (b : Byte) (s : State) : (setDelay b s).keywaitMode = s.keywaitMode := rfl
@[simp] theorem setDelay_script (b : Byte) (s : State) : (setDelay b s).script = s.script := rfl
@[simp] theorem setDelay_driver (b : Byte) (s : State) : (setDelay b s).driver = s.driver := rfl
@[simp] theorem setDelay_rndSupply (b : Byte) (s : State) : (setDelay b s).rndSupply = s.rndSupply := rfl
@[simp] theorem setDelay_draws (b : Byte) (s : State) : (setDelay b s).draws = s.draws := rfl

/-! ### setSound -/

@[simp] theorem setSound_v (b : Byte) (s : State) : (setSound b s).v = s.v := rfl
@[simp] theorem setSound_i (b : Byte) (s : State) : (setSound b s).i = s.i := rfl
@[simp] theorem setSound_pc (b : Byte) (s : State) : (setSound b s).pc = s.pc := rfl
@[simp] theorem setSound_sp (b : Byte) (s : State) : (setSound b s).sp = s.sp := rfl
@[simp] theorem setSound_stack (b : Byte) (s : State) : (setSound b s).stack = s.stack := rfl
@[simp] theorem setSound_dt (b : Byte) (s : State) : (setSound b s).dt = s.dt := rfl
@[simp] theorem setSound_st (b : Byte) (s : State) : (setSound b s).st = b := rfl
@[simp] theorem setSound_fb (b : Byte) (s : State) : (setSound b s).fb = s.fb := rfl
@[simp] theorem setSound_key (b : Byte) (s : State) : (setSound b s).key = s.key := rfl
@[simp] theorem setSound_mem (b : Byte) (s : State) : (setSound b s).mem = s.mem := rfl
@[simp] theorem setSound_keywaitMode (b : Byte) (s : State) : (setSound b s).keywaitMode = s.keywaitMode := rfl
@[simp] theorem setSound_script (b : Byte) (s : State) : (setSound b s).script = s.script := rfl
@[simp] theorem setSound_driver (b : Byte) (s : State) : (setSound b s).driver = s.driver := rfl
@[simp] theorem setSound_rndSupply (b : Byte) (s : State) : (setSound b s).rndSupply = s.rndSupply := rfl
@[simp] theorem setSound_draws (b : Byte) (s : State) : (setSound b s).draws = s.draws := rfl

/-! ### setScreen -/

@[simp] theorem setScreen_v (fb : Framebuffer) (s : State) : (setScreen fb s).v = s.v := rfl
@[simp] theorem setScreen_i (fb : Framebuffer) (s : State) : (setScreen fb s).i = s.i := rfl
@[simp] theorem setScreen_pc (fb : Framebuffer) (s : State) : (setScreen fb s).pc = s.pc := rfl
@[simp] theorem setScreen_sp (fb : Framebuffer) (s : State) : (setScreen fb s).sp = s.sp := rfl
@[simp] theorem setScreen_stack (fb : Framebuffer) (s : State) : (setScreen fb s).stack = s.stack := rfl
@[simp] theorem setScreen_dt (fb : Framebuffer) (s : State) : (setScreen fb s).dt = s.dt := rfl
@[simp] theorem setScreen_st (fb : Framebuffer) (s : State) : (setScreen fb s).st = s.st := rfl
@[simp] theorem setScreen_fb (fb : Framebuffer) (s : State) : (setScreen fb s).fb = fb := rfl
@[simp] theorem setScreen_key (fb : Framebuffer) (s : State) : (setScreen fb s).key = s.key := rfl
@[simp] theorem setScreen_mem (fb : Framebuffer) (s : State) : (setScreen fb s).mem = s.mem := rfl
@[simp] theorem setScreen_keywaitMode (fb : Framebuffer) (s : State) : (setScreen fb s).keywaitMode = s.keywaitMode := rfl
@[simp] theorem setScreen_script (fb : Framebuffer) (s : State) : (setScreen fb s).script = s.script := rfl
@[simp] theorem setScreen_driver (fb : Framebuffer) (s : State) : (setScreen fb s).driver = s.driver := rfl
@[simp] theorem setScreen_rndSupply (fb : Framebuffer) (s : State) : (setScreen fb s).rndSupply = s.rndSupply := rfl
@[simp] theorem setScreen_draws (fb : Framebuffer) (s : State) : (setScreen fb s).draws = s.draws := rfl

/-! ### setMem -/

@[simp] theorem setMem_v (m : Memory) (s : State) : (setMem m s).v = s.v := rfl
@[simp] theorem setMem_i (m : Memory) (s : State) : (setMem m s).i = s.i := rfl
@[simp] theorem setMem_pc (m : Memory) (s : State) : (setMem m s).pc = s.pc := rfl
@[simp] theorem setMem_sp (m : Memory) (s : State) : (setMem m s).sp = s.sp := rfl
@[simp] theorem setMem_stack (m : Memory) (s : State) : (setMem m s).stack = s.stack := rfl
@[simp] theorem setMem_dt (m : Memory) (s : State) : (setMem m s).dt = s.dt := rfl
@[simp] theorem setMem_st (m : Memory) (s : State) : (setMem m s).st = s.st := rfl
@[simp] theorem setMem_fb (m : Memory) (s : State) : (setMem m s).fb = s.fb := rfl
@[simp] theorem setMem_key (m : Memory) (s : State) : (setMem m s).key = s.key := rfl
@[simp] theorem setMem_mem (m : Memory) (s : State) : (setMem m s).mem = m := rfl
@[simp] theorem setMem_keywaitMode (m : Memory) (s : State) : (setMem m s).keywaitMode = s.keywaitMode := rfl
@[simp] theorem setMem_script (m : Memory) (s : State) : (setMem m s).script = s.script := rfl
@[simp] theorem setMem_driver (m : Memory) (s : State) : (setMem m s).driver = s.driver := rfl
@[simp] theorem setMem_rndSupply (m : Memory) (s : State) : (setMem m s).rndSupply = s.rndSupply := rfl
@[simp] theorem setMem_draws (m : Memory) (s : State) : (setMem m s).draws = s.draws := rfl

/-! ### writeFlag -/

@[simp] theorem writeFlag_i (f : Bool) (s : State) : (writeFlag f s).i = s.i := rfl
@[simp] theorem writeFlag_pc (f : Bool) (s : State) : (writeFlag f s).pc = s.pc := rfl
@[simp] theorem writeFlag_sp (f : Bool) (s : State) : (writeFlag f s).sp = s.sp := rfl
@[simp] theorem writeFlag_stack (f : Bool) (s : State) : (writeFlag f s).stack = s.stack := rfl
@[simp] theorem writeFlag_dt (f : Bool) (s : State) : (writeFlag f s).dt = s.dt := rfl
@[simp] theorem writeFlag_st (f : Bool) (s : State) : (writeFlag f s).st = s.st := rfl
@[simp] theorem writeFlag_fb (f : Bool) (s : State) : (writeFlag f s).fb = s.fb := rfl
@[simp] theorem writeFlag_key (f : Bool) (s : State) : (writeFlag f s).key = s.key := rfl
@[simp] theorem writeFlag_mem (f : Bool) (s : State) : (writeFlag f s).mem = s.mem := rfl
@[simp] theorem writeFlag_keywaitMode (f : Bool) (s : State) : (writeFlag f s).keywaitMode = s.keywaitMode := rfl
@[simp] theorem writeFlag_script (f : Bool) (s : State) : (writeFlag f s).script = s.script := rfl
@[simp] theorem writeFlag_driver (f : Bool) (s : State) : (writeFlag f s).driver = s.driver := rfl
@[simp] theorem writeFlag_rndSupply (f : Bool) (s : State) : (writeFlag f s).rndSupply = s.rndSupply := rfl
@[simp] theorem writeFlag_draws (f : Bool) (s : State) : (writeFlag f s).draws = s.draws := rfl

/-! ### writeResultFlag -/

@[simp] theorem writeResultFlag_i (x : RegNum) (b : Byte) (f : Bool) (s : State) : (writeResultFlag x b f s).i = s.i := rfl
@[simp] theorem writeResultFlag_pc (x : RegNum) (b : Byte) (f : Bool) (s : State) : (writeResultFlag x b f s).pc = s.pc := rfl
@[simp] theorem writeResultFlag_sp (x : RegNum) (b : Byte) (f : Bool) (s : State) : (writeResultFlag x b f s).sp = s.sp := rfl
@[simp] theorem writeResultFlag_stack (x : RegNum) (b : Byte) (f : Bool) (s : State) : (writeResultFlag x b f s).stack = s.stack := rfl
@[simp] theorem writeResultFlag_dt (x : RegNum) (b : Byte) (f : Bool) (s : State) : (writeResultFlag x b f s).dt = s.dt := rfl
@[simp] theorem writeResultFlag_st (x : RegNum) (b : Byte) (f : Bool) (s : State) : (writeResultFlag x b f s).st = s.st := rfl
@[simp] theorem writeResultFlag_fb (x : RegNum) (b : Byte) (f : Bool) (s : State) : (writeResultFlag x b f s).fb = s.fb := rfl
@[simp] theorem writeResultFlag_key (x : RegNum) (b : Byte) (f : Bool) (s : State) : (writeResultFlag x b f s).key = s.key := rfl
@[simp] theorem writeResultFlag_mem (x : RegNum) (b : Byte) (f : Bool) (s : State) : (writeResultFlag x b f s).mem = s.mem := rfl
@[simp] theorem writeResultFlag_keywaitMode (x : RegNum) (b : Byte) (f : Bool) (s : State) : (writeResultFlag x b f s).keywaitMode = s.keywaitMode := rfl
@[simp] theorem writeResultFlag_script (x : RegNum) (b : Byte) (f : Bool) (s : State) : (writeResultFlag x b f s).script = s.script := rfl
@[simp] theorem writeResultFlag_driver (x : RegNum) (b : Byte) (f : Bool) (s : State) : (writeResultFlag x b f s).driver = s.driver := rfl
@[simp] theorem writeResultFlag_rndSupply (x : RegNum) (b : Byte) (f : Bool) (s : State) : (writeResultFlag x b f s).rndSupply = s.rndSupply := rfl
@[simp] theorem writeResultFlag_draws (x : RegNum) (b : Byte) (f : Bool) (s : State) : (writeResultFlag x b f s).draws = s.draws := rfl

/-! ### tick -/

@[simp] theorem tick_v (s : State) : (tick s).v = s.v := rfl
@[simp] theorem tick_i (s : State) : (tick s).i = s.i := rfl
@[simp] theorem tick_pc (s : State) : (tick s).pc = s.pc := rfl
@[simp] theorem tick_sp (s : State) : (tick s).sp = s.sp := rfl
@[simp] theorem tick_stack (s : State) : (tick s).stack = s.stack := rfl
@[simp] theorem tick_fb (s : State) : (tick s).fb = s.fb := rfl
@[simp] theorem tick_key (s : State) : (tick s).key = s.key := rfl
@[simp] theorem tick_mem (s : State) : (tick s).mem = s.mem := rfl
@[simp] theorem tick_keywaitMode (s : State) : (tick s).keywaitMode = s.keywaitMode := rfl
@[simp] theorem tick_script (s : State) : (tick s).script = s.script := rfl
@[simp] theorem tick_driver (s : State) : (tick s).driver = s.driver := rfl
@[simp] theorem tick_rndSupply (s : State) : (tick s).rndSupply = s.rndSupply := rfl
@[simp] theorem tick_draws (s : State) : (tick s).draws = s.draws := rfl

/-! ### keyWrite -/

@[simp] theorem keyWrite_v (k : Nibble) (b : Bool) (s : State) : (keyWrite k b s).v = s.v := rfl
@[simp] theorem keyWrite_i (k : Nibble) (b : Bool) (s : State) : (keyWrite k b s).i = s.i := rfl
@[simp] theorem keyWrite_pc (k : Nibble) (b : Bool) (s : State) : (keyWrite k b s).pc = s.pc := rfl
@[simp] theorem keyWrite_sp (k : Nibble) (b : Bool) (s : State) : (keyWrite k b s).sp = s.sp := rfl
@[simp] theorem keyWrite_stack (k : Nibble) (b : Bool) (s : State) : (keyWrite k b s).stack = s.stack := rfl
@[simp] theorem keyWrite_dt (k : Nibble) (b : Bool) (s : State) : (keyWrite k b s).dt = s.dt := rfl
@[simp] theorem keyWrite_st (k : Nibble) (b : Bool) (s : State) : (keyWrite k b s).st = s.st := rfl
@[simp] theorem keyWrite_fb (k : Nibble) (b : Bool) (s : State) : (keyWrite k b s).fb = s.fb := rfl
@[simp] theorem keyWrite_mem (k : Nibble) (b : Bool) (s : State) : (keyWrite k b s).mem = s.mem := rfl
@[simp] theorem keyWrite_keywaitMode (k : Nibble) (b : Bool) (s : State) : (keyWrite k b s).keywaitMode = s.keywaitMode := rfl
@[simp] theorem keyWrite_script (k : Nibble) (b : Bool) (s : State) : (keyWrite k b s).script = s.script := rfl
@[simp] theorem keyWrite_driver (k : Nibble) (b : Bool) (s : State) : (keyWrite k b s).driver = s.driver := rfl
@[simp] theorem keyWrite_rndSupply (k : Nibble) (b : Bool) (s : State) : (keyWrite k b s).rndSupply = s.rndSupply := rfl
@[simp] theorem keyWrite_draws (k : Nibble) (b : Bool) (s : State) : (keyWrite k b s).draws = s.draws := rfl

@[simp] theorem tick_dt (s : State) : (tick s).dt = countDown s.dt := rfl
@[simp] theorem tick_st (s : State) : (tick s).st = countDown s.st := rfl

/-! ### skipIf -/

@[simp] theorem skipIf_v (c : Bool) (s : State) : (skipIf c s).v = s.v := by cases c <;> rfl
@[simp] theorem skipIf_i (c : Bool) (s : State) : (skipIf c s).i = s.i := by cases c <;> rfl
@[simp] theorem skipIf_pc (c : Bool) (s : State) : (skipIf c s).pc = if c then s.pc + 4 else s.pc + 2 := by
  cases c <;> rfl
@[simp] theorem skipIf_sp (c : Bool) (s : State) : (skipIf c s).sp = s.sp := by cases c <;> rfl
@[simp] theorem skipIf_stack (c : Bool) (s : State) : (skipIf c s).stack = s.stack := by cases c <;> rfl
@[simp] theorem skipIf_dt (c : Bool) (s : State) : (skipIf c s).dt = s.dt := by cases c <;> rfl
@[simp] theorem skipIf_st (c : Bool) (s : State) : (skipIf c s).st = s.st := by cases c <;> rfl
@[simp] theorem skipIf_fb (c : Bool) (s : State) : (skipIf c s).fb = s.fb := by cases c <;> rfl
@[simp] theorem skipIf_key (c : Bool) (s : State) : (skipIf c s).key = s.key := by cases c <;> rfl
@[simp] theorem skipIf_mem (c : Bool) (s : State) : (skipIf c s).mem = s.mem := by cases c <;> rfl
@[simp] theorem skipIf_keywaitMode (c : Bool) (s : State) : (skipIf c s).keywaitMode = s.keywaitMode := by cases c <;> rfl
@[simp] theorem skipIf_script (c : Bool) (s : State) : (skipIf c s).script = s.script := by cases c <;> rfl
@[simp] theorem skipIf_driver (c : Bool) (s : State) : (skipIf c s).driver = s.driver := by cases c <;> rfl
@[simp] theorem skipIf_rndSupply (c : Bool) (s : State) : (skipIf c s).rndSupply = s.rndSupply := by cases c <;> rfl
@[simp] theorem skipIf_draws (c : Bool) (s : State) : (skipIf c s).draws = s.draws := by cases c <;> rfl

/-! ### consumeRandom -/

@[simp] theorem consumeRandom_v (s : State) : (consumeRandom s).v = s.v := by
  unfold consumeRandom; split <;> rfl
@[simp] theorem consumeRandom_i (s : State) : (consumeRandom s).i = s.i := by
  unfold consumeRandom; split <;> rfl
@[simp] theorem consumeRandom_pc (s : State) : (consumeRandom s).pc = s.pc := by
  unfold consumeRandom; split <;> rfl
@[simp] theorem consumeRandom_sp (s : State) : (consumeRandom s).sp = s.sp := by
  unfold consumeRandom; split <;> rfl
@[simp] theorem consumeRandom_stack (s : State) : (consumeRandom s).stack = s.stack := by
  unfold consumeRandom; split <;> rfl
@[simp] theorem consumeRandom_dt (s : State) : (consumeRandom s).dt = s.dt := by
  unfold consumeRandom; split <;> rfl
@[simp] theorem consumeRandom_st (s : State) : (consumeRandom s).st = s.st := by
  unfold consumeRandom; split <;> rfl
@[simp] theorem consumeRandom_fb (s : State) : (consumeRandom s).fb = s.fb := by
  unfold consumeRandom; split <;> rfl
@[simp] theorem consumeRandom_key (s : State) : (consumeRandom s).key = s.key := by
  unfold consumeRandom; split <;> rfl
@[simp] theorem consumeRandom_mem (s : State) : (consumeRandom s).mem = s.mem := by
  unfold consumeRandom; split <;> rfl
@[simp] theorem consumeRandom_keywaitMode (s : State) : (consumeRandom s).keywaitMode = s.keywaitMode := by
  unfold consumeRandom; split <;> rfl
@[simp] theorem consumeRandom_script (s : State) : (consumeRandom s).script = s.script := by
  unfold consumeRandom; split <;> rfl
@[simp] theorem consumeRandom_driver (s : State) : (consumeRandom s).driver = s.driver := by
  unfold consumeRandom; split <;> rfl

/-! ### writeRegs -/

@[simp] theorem writeRegs_i (bs : List Byte) (k : Nat) (s : State) : (writeRegs k bs s).i = s.i := by
  induction bs generalizing k s with
  | nil => rfl
  | cons b bs ih => exact ih _ _
@[simp] theorem writeRegs_pc (bs : List Byte) (k : Nat) (s : State) : (writeRegs k bs s).pc = s.pc := by
  induction bs generalizing k s with
  | nil => rfl
  | cons b bs ih => exact ih _ _
@[simp] theorem writeRegs_sp (bs : List Byte) (k : Nat) (s : State) : (writeRegs k bs s).sp = s.sp := by
  induction bs generalizing k s with
  | nil => rfl
  | cons b bs ih => exact ih _ _
@[simp] theorem writeRegs_stack (bs : List Byte) (k : Nat) (s : State) : (writeRegs k bs s).stack = s.stack := by
  induction bs generalizing k s with
  | nil => rfl
  | cons b bs ih => exact ih _ _
@[simp] theorem writeRegs_dt (bs : List Byte) (k : Nat) (s : State) : (writeRegs k bs s).dt = s.dt := by
  induction bs generalizing k s with
  | nil => rfl
  | cons b bs ih => exact ih _ _
@[simp] theorem writeRegs_st (bs : List Byte) (k : Nat) (s : State) : (writeRegs k bs s).st = s.st := by
  induction bs generalizing k s with
  | nil => rfl
  | cons b bs ih => exact ih _ _
@[simp] theorem writeRegs_fb (bs : List Byte) (k : Nat) (s : State) : (writeRegs k bs s).fb = s.fb := by
  induction bs generalizing k s with
  | nil => rfl
  | cons b bs ih => exact ih _ _
@[simp] theorem writeRegs_key (bs : List Byte) (k : Nat) (s : State) : (writeRegs k bs s).key = s.key := by
  induction bs generalizing k s with
  | nil => rfl
  | cons b bs ih => exact ih _ _
@[simp] theorem writeRegs_mem (bs : List Byte) (k : Nat) (s : State) : (writeRegs k bs s).mem = s.mem := by
  induction bs generalizing k s with
  | nil => rfl
  | cons b bs ih => exact ih _ _
@[simp] theorem writeRegs_keywaitMode (bs : List Byte) (k : Nat) (s : State) : (writeRegs k bs s).keywaitMode = s.keywaitMode := by
  induction bs generalizing k s with
  | nil => rfl
  | cons b bs ih => exact ih _ _
@[simp] theorem writeRegs_script (bs : List Byte) (k : Nat) (s : State) : (writeRegs k bs s).script = s.script := by
  induction bs generalizing k s with
  | nil => rfl
  | cons b bs ih => exact ih _ _
@[simp] theorem writeRegs_driver (bs : List Byte) (k : Nat) (s : State) : (writeRegs k bs s).driver = s.driver := by
  induction bs generalizing k s with
  | nil => rfl
  | cons b bs ih => exact ih _ _
@[simp] theorem writeRegs_rndSupply (bs : List Byte) (k : Nat) (s : State) : (writeRegs k bs s).rndSupply = s.rndSupply := by
  induction bs generalizing k s with
  | nil => rfl
  | cons b bs ih => exact ih _ _
@[simp] theorem writeRegs_draws (bs : List Byte) (k : Nat) (s : State) : (writeRegs k bs s).draws = s.draws := by
  induction bs generalizing k s with
  | nil => rfl
  | cons b bs ih => exact ih _ _

/-! ### Reading a register after an update -/

@[simp] theorem readReg_writeReg_self (r : RegNum) (b : Byte) (s : State) : readReg (writeReg r b s) r = b := by
  simp [readReg, writeReg]

theorem readReg_writeReg_of_ne {r r' : RegNum} (h : r' ≠ r) (b : Byte) (s : State) :
    readReg (writeReg r b s) r' = readReg s r' := by
  have : r.toNat ≠ r'.toNat := fun e => h (BitVec.eq_of_toNat_eq e.symm)
  simp [readReg, writeReg, Vector.getElem_set_ne _ _ this]

theorem readReg_writeReg (r r' : RegNum) (b : Byte) (s : State) :
    readReg (writeReg r b s) r' = if r' = r then b else readReg s r' := by
  split
  · next h => subst h; simp
  · next h => exact readReg_writeReg_of_ne h b s

/-- A register read depends on the register file alone. -/
theorem readReg_congr {s t : State} (h : t.v = s.v) (r : RegNum) : readReg t r = readReg s r := by
  simp [readReg, h]

@[simp] theorem readReg_setPc (a : Word) (s : State) (r : RegNum) : readReg (setPc a s) r = readReg s r := rfl
@[simp] theorem readReg_advance (s : State) (r : RegNum) : readReg (advance s) r = readReg s r := rfl
@[simp] theorem readReg_setIndex (a : Word) (s : State) (r : RegNum) : readReg (setIndex a s) r = readReg s r := rfl
@[simp] theorem readReg_setDelay (b : Byte) (s : State) (r : RegNum) : readReg (setDelay b s) r = readReg s r := rfl
@[simp] theorem readReg_setSound (b : Byte) (s : State) (r : RegNum) : readReg (setSound b s) r = readReg s r := rfl
@[simp] theorem readReg_setScreen (fb : Framebuffer) (s : State) (r : RegNum) : readReg (setScreen fb s) r = readReg s r := rfl
@[simp] theorem readReg_setMem (m : Memory) (s : State) (r : RegNum) : readReg (setMem m s) r = readReg s r := rfl
@[simp] theorem readReg_tick (s : State) (r : RegNum) : readReg (tick s) r = readReg s r := rfl
@[simp] theorem readReg_keyWrite (k : Nibble) (b : Bool) (s : State) (r : RegNum) : readReg (keyWrite k b s) r = readReg s r := rfl
@[simp] theorem readReg_skipIf (c : Bool) (s : State) (r : RegNum) : readReg (skipIf c s) r = readReg s r :=
  readReg_congr (skipIf_v c s) r
@[simp] theorem readReg_consumeRandom (s : State) (r : RegNum) : readReg (consumeRandom s) r = readReg s r :=
  readReg_congr (consumeRandom_v s) r

/-- R120: VF ends as the flag, every other register as after the result. -/
theorem readReg_writeResultFlag (x r : RegNum) (b : Byte) (f : Bool) (s : State) :
    readReg (writeResultFlag x b f s) r =
      if r = VF then flagByte f else if r = x then b else readReg s r := by
  simp only [writeResultFlag, writeFlag, readReg_writeReg]

@[simp] theorem flagByte_toNat (f : Bool) : (flagByte f).toNat = if f then 1 else 0 := by cases f <;> rfl

theorem flagByte_zero_or_one (f : Bool) : flagByte f = 0 ∨ flagByte f = 1 := by cases f <;> simp [flagByte]

/-- Writing a block of registers from V[k] upward: V[k + j] gets the j-th byte, the others stay. -/
theorem readReg_writeRegs (bs : List Byte) (k : Nat) (s : State) (r : RegNum) (hk : k + bs.length ≤ 16) :
    readReg (writeRegs k bs s) r =
      if h : k ≤ r.toNat ∧ r.toNat < k + bs.length then bs[r.toNat - k]'(by omega) else readReg s r := by
  induction bs generalizing k s with
  | nil => simp [writeRegs]
  | cons b bs ih =>
    simp only [List.length_cons] at hk
    rw [writeRegs, ih (k + 1) _ (by omega)]
    have hkr : (r = BitVec.ofNat 4 k) ↔ r.toNat = k := by
      constructor
      · rintro rfl; simp; omega
      · intro h; apply BitVec.eq_of_toNat_eq; simp; omega
    by_cases h1 : k + 1 ≤ r.toNat ∧ r.toNat < k + 1 + bs.length
    · have h2 : k ≤ r.toNat ∧ r.toNat < k + (bs.length + 1) := by omega
      have h3 : r.toNat - k = (r.toNat - (k + 1)) + 1 := by omega
      simp [h1, h2, h3]
    · by_cases h2 : r.toNat = k
      · have h3 : k ≤ r.toNat ∧ r.toNat < k + (bs.length + 1) := by omega
        simp [readReg_writeReg, hkr, h2]
      · have h3 : ¬ (k ≤ r.toNat ∧ r.toNat < k + (bs.length + 1)) := by omega
        simp only [h1, dite_false, List.length_cons, h3, readReg_writeReg, hkr, h2, if_false]

end Sys2Proof.Machine
end

