-- ==== Sys2Proof/Laws/Ops.lean ====
section
/-!
SUPPORT. What each shared operation can do, said once: checks that go on or raise, the call stack, pc, the frame.
-/
namespace Sys2Proof.Machine

@[simp] theorem orRaise_ok {α : Type} (a : α) (k : α → Result) : orRaise (.ok a) k = k a := rfl

@[simp] theorem orRaise_error {α : Type} (f : Fault) (k : α → Result) : orRaise (.error f) k = .fault f := rfl

/-- A check that answers next went through. -/
theorem orRaise_eq_next {α : Type} {e : Except Fault α} {k : α → Result} {t : State} (h : orRaise e k = .next t) :
    ∃ a, e = .ok a ∧ k a = .next t := by
  cases e with
  | ok a => exact ⟨a, rfl, h⟩
  | error f => cases h

/-- A check that ends in a fault raised it, or went through to it. -/
theorem orRaise_eq_fault {α : Type} {e : Except Fault α} {k : α → Result} {f : Fault} (h : orRaise e k = .fault f) :
    e = .error f ∨ ∃ a, e = .ok a ∧ k a = .fault f := by
  cases e with
  | ok a => exact .inr ⟨a, rfl, h⟩
  | error g => cases h; exact .inl rfl

/-- Nothing is refused by a check. -/
theorem orRaise_eq_refused {α : Type} {e : Except Fault α} {k : α → Result} {r : Refusal}
    (h : orRaise e k = .refused r) : ∃ a, e = .ok a ∧ k a = .refused r := by
  cases e with
  | ok a => exact ⟨a, rfl, h⟩
  | error f => cases h

/-! ### Call stack -/

theorem pushEntry_of_lt {s : State} (h : s.sp.toNat < 16) (e : Word) (k : State → Result) :
    pushEntry e s k = k { s with stack := s.stack.set s.sp.toNat e h, sp := s.sp + 1 } := by
  simp [pushEntry, show s.sp.toNat ≠ 16 by omega, h]

theorem pushEntry_of_full {s : State} (h : s.sp.toNat = 16) (e : Word) (k : State → Result) :
    pushEntry e s k = .fault .stackOverflow := by simp [pushEntry, h, raise]

theorem pushEntry_of_gt {s : State} (h : 16 < s.sp.toNat) (e : Word) (k : State → Result) :
    pushEntry e s k = .refused .stackPointerOutOfRange := by
  simp [pushEntry, show s.sp.toNat ≠ 16 by omega, show ¬ s.sp.toNat < 16 by omega]

theorem popEntry_of_pos {s : State} {j : Nat} (hj : j < 16) (h : s.sp.toNat = j + 1) (k : Word → State → Result) :
    popEntry s k = k (s.stack[j]'hj) { s with sp := s.sp - 1 } := by
  have h1 : s.sp.toNat - 1 = j := by omega
  unfold popEntry
  rw [dif_neg (by omega), dif_pos (by omega)]
  simp [h1]

theorem popEntry_of_zero {s : State} (h : s.sp.toNat = 0) (k : Word → State → Result) :
    popEntry s k = .fault .stackUnderflow := by simp [popEntry, h, raise]

theorem popEntry_of_gt {s : State} (h : 16 < s.sp.toNat) (k : Word → State → Result) :
    popEntry s k = .refused .stackPointerOutOfRange := by
  unfold popEntry
  rw [dif_neg (by omega), dif_neg (by omega)]

/-! ### Widths -/

@[simp] theorem addrOf_toNat (nnn : Addr12) : (addrOf nnn).toNat = nnn.toNat := by
  have := nnn.isLt
  simp [addrOf]; omega

@[simp] theorem wordOf_toNat (b : Byte) : (wordOf b).toNat = b.toNat := by
  have := b.isLt
  simp [wordOf]; omega

theorem lowNibble_toNat (b : Byte) : (lowNibble b).toNat = b.toNat % 16 := by simp [lowNibble, BitVec.extractLsb'_toNat]

theorem countDown_toNat (b : Byte) : (countDown b).toNat = b.toNat - 1 := by
  have := b.isLt
  unfold countDown
  split
  · rw [BitVec.toNat_sub]; simp; omega
  · omega

/-! ### pc -/

theorem pcPlus_advance (s t : State) (h : t.pc = s.pc) : PcPlus 2 s (advance t) := by simp [PcPlus, h, BitVec.toNat_add]

theorem pcPlus_skipIf_true (s : State) : PcPlus 4 s (skipIf true s) := by simp [PcPlus, BitVec.toNat_add]

theorem pcPlus_skipIf_false (s : State) : PcPlus 2 s (skipIf false s) := by simp [PcPlus, BitVec.toNat_add]

/-! ### Frames -/

theorem Frame.refl (f : Footprint) (s : State) : Frame f s s where
  regs _ _ := rfl
  index _ := rfl
  stack _ := ⟨rfl, rfl⟩
  delay _ := rfl
  sound _ := rfl
  screen _ := rfl
  random _ := ⟨rfl, rfl⟩
  mem _ _ := rfl
  keys := rfl
  mode := rfl
  driver := ⟨rfl, rfl⟩

/-- pc is outside every frame. -/
theorem Frame.setPc {f : Footprint} {s t : State} (h : Frame f s t) (a : Word) : Frame f s (setPc a t) where
  regs := h.regs
  index := h.index
  stack := h.stack
  delay := h.delay
  sound := h.sound
  screen := h.screen
  random := h.random
  mem := h.mem
  keys := h.keys
  mode := h.mode
  driver := h.driver

theorem Frame.advance {f : Footprint} {s t : State} (h : Frame f s t) : Frame f s (advance t) := h.setPc _

theorem Frame.skipIf {f : Footprint} {s t : State} (h : Frame f s t) (c : Bool) : Frame f s (skipIf c t) := by
  cases c
  · exact h.advance
  · exact h.setPc _

/-- A register of the footprint may be written. -/
theorem Frame.writeReg {f : Footprint} {s t : State} (h : Frame f s t) {r : RegNum} (hr : r ∈ f.regs) (b : Byte) :
    Frame f s (writeReg r b t) where
  regs r' hr' :=
    have hne : r' ≠ r := fun e => hr' (by rw [e]; exact hr)
    (readReg_writeReg_of_ne hne b t).trans (h.regs r' hr')
  index := h.index
  stack := h.stack
  delay := h.delay
  sound := h.sound
  screen := h.screen
  random := h.random
  mem := h.mem
  keys := h.keys
  mode := h.mode
  driver := h.driver

theorem Frame.writeRegs {f : Footprint} {s t : State} (h : Frame f s t) (k : Nat) (bs : List Byte)
    (hk : ∀ j, k ≤ j → j < k + bs.length → BitVec.ofNat 4 j ∈ f.regs) : Frame f s (writeRegs k bs t) := by
  induction bs generalizing k t with
  | nil => exact h
  | cons b bs ih =>
    refine ih (h.writeReg (hk k (Nat.le_refl k) (by simp)) b) (k + 1) fun j h1 h2 => hk j (by omega) ?_
    simp only [List.length_cons]; omega

theorem Frame.setIndex {f : Footprint} {s t : State} (h : Frame f s t) (hf : f.index = true) (a : Word) :
    Frame f s (setIndex a t) :=
  { h with index := fun e => by simp [hf] at e }

theorem Frame.setDelay {f : Footprint} {s t : State} (h : Frame f s t) (hf : f.delay = true) (b : Byte) :
    Frame f s (setDelay b t) :=
  { h with delay := fun e => by simp [hf] at e }

theorem Frame.setSound {f : Footprint} {s t : State} (h : Frame f s t) (hf : f.sound = true) (b : Byte) :
    Frame f s (setSound b t) :=
  { h with sound := fun e => by simp [hf] at e }

theorem Frame.setScreen {f : Footprint} {s t : State} (h : Frame f s t) (hf : f.screen = true) (fb : Framebuffer) :
    Frame f s (setScreen fb t) :=
  { h with screen := fun e => by simp [hf] at e }

/-- The bytes of the footprint may be written. -/
theorem readByte_writeBytes_outside (m : Memory) (a : Nat) (bs : List Byte) {a' : Nat}
    (h : ¬ (a ≤ a' ∧ a' < a + bs.length)) : readByte (writeBytes m a bs) a' = readByte m a' := by
  induction bs generalizing m a with
  | nil => rfl
  | cons b bs ih =>
    simp only [List.length_cons] at h
    have hne : a' ≠ a := by omega
    rw [writeBytes, ih _ _ (by omega)]
    induction m with
    | nil => by_cases hb : b = resetByte a <;> simp [writeByte, readByte, hb, Ne.symm hne]
    | cons c m ihm =>
      simp only [writeByte]
      split
      · split
        · rfl
        · rw [readByte]; simp [Ne.symm hne]
      · split
        · next _ heq => subst heq; split <;> simp [readByte, Ne.symm hne]
        · simp only [readByte, ihm]

theorem Frame.setMem {f : Footprint} {s t : State} (h : Frame f s t) {m : Memory}
    (hm : ∀ a, ¬ (f.memAt ≤ a ∧ a < f.memAt + f.memLen) → readByte m a = readByte t.mem a) : Frame f s (setMem m t) :=
  { h with mem := fun a ha => (hm a ha).trans (h.mem a ha) }

theorem mem_regsUpTo {x : RegNum} {j : Nat} (h : j < x.toNat + 1) : BitVec.ofNat 4 j ∈ regsUpTo x :=
  List.mem_map.2 ⟨j, List.mem_range.2 h, rfl⟩

end Sys2Proof.Machine
end

