-- ==== Sys2Proof/Laws/Screen.lean ====
section
/-!
SUPPORT. What drawing does to each pixel and to the collision flag (46_draw_and_clear.md R145, R147 to R149).
-/
namespace Sys2Proof.Machine

/-- A pixel after one plot: inverted at the plotted place, as before elsewhere. -/
theorem pixel_plot (row col : Nat) (p : Framebuffer × Bool) (r : Fin 32) (c : Fin 64) :
    pixel (plot row col p).1 r c = (pixel p.1 r c ^^ decide (row = r.val ∧ col = c.val)) := by
  unfold plot
  split
  · split
    · next hr hc =>
      by_cases h1 : row = r.val
      · subst h1
        by_cases h2 : col = c.val
        · subst h2; simp [pixel]
        · simp [pixel, h2, Vector.getElem_set_ne _ _ h2]
      · simp [pixel, h1, Vector.getElem_set_ne _ _ h1]
    · have : col ≠ c.val := by omega
      simp [this]
  · have : row ≠ r.val := by omega
    simp [this]

/-- The collision flag after one plot. -/
theorem hit_plot (row col : Nat) (p : Framebuffer × Bool) :
    (plot row col p).2 = true ↔
      p.2 = true ∨ ∃ (r : Fin 32) (c : Fin 64), row = r.val ∧ col = c.val ∧ pixel p.1 r c = true := by
  unfold plot
  split
  · next hr =>
    split
    · next hc =>
      simp only [Bool.or_eq_true]
      refine or_congr Iff.rfl ⟨fun h => ⟨⟨row, hr⟩, ⟨col, hc⟩, rfl, rfl, h⟩, ?_⟩
      rintro ⟨r, c, h1, h2, h⟩
      subst h1; subst h2; exact h
    · next hc =>
      refine ⟨.inl, fun h => h.elim id ?_⟩
      rintro ⟨r, c, _, h2, _⟩
      exact absurd (h2 ▸ c.isLt) hc
  · next hr =>
    refine ⟨.inl, fun h => h.elim id ?_⟩
    rintro ⟨r, c, h1, _, _⟩
    exact absurd (h1 ▸ r.isLt) hr

/-- The first `k` pixel columns of a sprite row. -/
def drawRowPart (row col0 : Nat) (b : Byte) (k : Nat) (p : Framebuffer × Bool) : Framebuffer × Bool :=
  (List.range k).foldl (fun p c => if spriteBit b c then plot row (col0 + c) p else p) p

theorem drawRowPart_succ (row col0 : Nat) (b : Byte) (k : Nat) (p : Framebuffer × Bool) :
    drawRowPart row col0 b (k + 1) p =
      if spriteBit b k then plot row (col0 + k) (drawRowPart row col0 b k p) else drawRowPart row col0 b k p := by
  simp [drawRowPart, List.range_succ]

/-- Pixel (r, c) is under a 1-pixel among the first `k` columns of a sprite row placed at (row, col0). -/
def rowCovers (row col0 : Nat) (b : Byte) (k : Nat) (r : Fin 32) (c : Fin 64) : Prop :=
  row = r.val ∧ col0 ≤ c.val ∧ c.val < col0 + k ∧ spriteBit b (c.val - col0) = true

theorem rowCovers_succ (row col0 : Nat) (b : Byte) (k : Nat) (r : Fin 32) (c : Fin 64) :
    rowCovers row col0 b (k + 1) r c ↔
      rowCovers row col0 b k r c ∨ (row = r.val ∧ col0 + k = c.val ∧ spriteBit b k = true) := by
  unfold rowCovers
  constructor
  · rintro ⟨h1, h2, h3, h4⟩
    by_cases h : c.val = col0 + k
    · exact .inr ⟨h1, h.symm, by rwa [h, Nat.add_sub_cancel_left] at h4⟩
    · exact .inl ⟨h1, h2, by omega, h4⟩
  · rintro (⟨h1, h2, h3, h4⟩ | ⟨h1, h2, h3⟩)
    · exact ⟨h1, h2, by omega, h4⟩
    · exact ⟨h1, by omega, by omega, by rwa [← h2, Nat.add_sub_cancel_left]⟩

theorem drawRowPart_pixel (row col0 : Nat) (b : Byte) (k : Nat) (p : Framebuffer × Bool) (r : Fin 32) (c : Fin 64) :
    (rowCovers row col0 b k r c → pixel (drawRowPart row col0 b k p).1 r c = !pixel p.1 r c) ∧
    (¬ rowCovers row col0 b k r c → pixel (drawRowPart row col0 b k p).1 r c = pixel p.1 r c) := by
  induction k with
  | zero => exact ⟨fun h => absurd h.2.2.1 (by have := h.2.1; omega), fun _ => rfl⟩
  | succ k ih =>
    rw [drawRowPart_succ, rowCovers_succ]
    have old : row = r.val ∧ col0 + k = c.val → ¬ rowCovers row col0 b k r c := fun h h' => by
      have := h'.2.2.1; omega
    by_cases hb : spriteBit b k = true
    · simp only [hb, if_true, pixel_plot, and_true]
      by_cases h : row = r.val ∧ col0 + k = c.val
      · have hold := ih.2 (old h)
        simp only [h, and_self, or_true, not_true, decide_true, Bool.xor_true, forall_const, false_implies, and_true]
        rw [← h.1, hold]
      · simp only [h, or_false, decide_false, Bool.xor_false]; exact ih
    · rw [Bool.not_eq_true] at hb
      simp only [hb, Bool.false_eq_true, if_false, and_false, or_false]; exact ih

theorem drawRowPart_hit (row col0 : Nat) (b : Byte) (k : Nat) (p : Framebuffer × Bool) :
    (drawRowPart row col0 b k p).2 = true ↔
      p.2 = true ∨ ∃ r c, rowCovers row col0 b k r c ∧ pixel p.1 r c = true := by
  induction k with
  | zero =>
    refine ⟨.inl, fun h => h.elim id ?_⟩
    rintro ⟨r, c, h, _⟩
    exact absurd h.2.2.1 (by have := h.2.1; omega)
  | succ k ih =>
    rw [drawRowPart_succ]
    split
    · next hb =>
      rw [hit_plot, ih]
      constructor
      · rintro ((h | ⟨r, c, h, h'⟩) | ⟨r, c, h1, h2, h3⟩)
        · exact .inl h
        · exact .inr ⟨r, c, (rowCovers_succ ..).2 (.inl h), h'⟩
        · refine .inr ⟨r, c, (rowCovers_succ ..).2 (.inr ⟨h1, h2, hb⟩), ?_⟩
          rwa [(drawRowPart_pixel row col0 b k p r c).2 fun h => by have := h.2.2.1; omega] at h3
      · rintro (h | ⟨r, c, h, h'⟩)
        · exact .inl (.inl h)
        · rcases (rowCovers_succ ..).1 h with h | ⟨h1, h2, _⟩
          · exact .inl (.inr ⟨r, c, h, h'⟩)
          · refine .inr ⟨r, c, h1, h2, ?_⟩
            rwa [(drawRowPart_pixel row col0 b k p r c).2 fun h => by have := h.2.2.1; omega]
    · next hb =>
      rw [ih]
      refine or_congr Iff.rfl (exists_congr fun r => exists_congr fun c => and_congr_left fun _ => ?_)
      rw [rowCovers_succ]
      exact ⟨.inl, fun h => h.elim id fun h => absurd h.2.2 hb⟩

/-- Pixel (r, c) is under a drawn 1-pixel of the sprite rows `bs` placed at (row0, col0). -/
def rowsCover (bs : List Byte) (row0 col0 : Nat) (r : Fin 32) (c : Fin 64) : Prop :=
  row0 ≤ r.val ∧ col0 ≤ c.val ∧ c.val < col0 + 8 ∧
    ∃ h : r.val - row0 < bs.length, spriteBit (bs[r.val - row0]'h) (c.val - col0) = true

theorem rowsCover_cons (b : Byte) (bs : List Byte) (row0 col0 : Nat) (r : Fin 32) (c : Fin 64) :
    rowsCover (b :: bs) row0 col0 r c ↔ rowCovers row0 col0 b 8 r c ∨ rowsCover bs (row0 + 1) col0 r c := by
  unfold rowsCover rowCovers
  constructor
  · rintro ⟨h1, h2, h3, h4, h5⟩
    by_cases h : row0 = r.val
    · exact .inl ⟨h, h2, h3, by simpa [h] using h5⟩
    · have e : r.val - row0 = (r.val - (row0 + 1)) + 1 := by omega
      simp only [e, List.length_cons] at h4
      simp only [e, List.getElem_cons_succ] at h5
      exact .inr ⟨by omega, h2, h3, by omega, h5⟩
  · rintro (⟨h1, h2, h3, h4⟩ | ⟨h1, h2, h3, h4, h5⟩)
    · subst h1
      exact ⟨Nat.le_refl _, h2, h3, by simp, by simpa using h4⟩
    · have e : r.val - row0 = (r.val - (row0 + 1)) + 1 := by omega
      refine ⟨by omega, h2, h3, ?_, ?_⟩
      · simp only [e, List.length_cons]; omega
      · simp only [e, List.getElem_cons_succ]; exact h5

/-- Two sprite rows never cover one pixel (R145: "Pixels of one DRW never overlap each other"). -/
theorem rowsCover_disjoint {b : Byte} {bs : List Byte} {row0 col0 : Nat} {r : Fin 32} {c : Fin 64}
    (h : rowCovers row0 col0 b 8 r c) : ¬ rowsCover bs (row0 + 1) col0 r c := fun h' => by
  have h1 := h.1
  have h2 := h'.1
  omega

theorem drawRows_pixel (bs : List Byte) (row0 col0 : Nat) (p : Framebuffer × Bool) (r : Fin 32) (c : Fin 64) :
    (rowsCover bs row0 col0 r c → pixel (drawRows bs row0 col0 p).1 r c = !pixel p.1 r c) ∧
    (¬ rowsCover bs row0 col0 r c → pixel (drawRows bs row0 col0 p).1 r c = pixel p.1 r c) := by
  induction bs generalizing row0 p with
  | nil => exact ⟨fun h => absurd h.2.2.2.1 (by simp), fun _ => rfl⟩
  | cons b bs ih =>
    have hrow := drawRowPart_pixel row0 col0 b 8 p r c
    have hrest := ih (row0 + 1) (drawRow row0 col0 b p)
    rw [rowsCover_cons]
    by_cases h1 : rowCovers row0 col0 b 8 r c
    · refine ⟨fun _ => ?_, fun h => absurd (.inl h1) h⟩
      rw [drawRows, hrest.2 (rowsCover_disjoint h1)]
      exact hrow.1 h1
    · refine ⟨fun h => ?_, fun h => ?_⟩
      · rw [drawRows, hrest.1 (h.resolve_left h1)]
        exact congrArg _ (hrow.2 h1)
      · rw [drawRows, hrest.2 fun h' => h (.inr h')]
        exact hrow.2 h1

theorem drawRows_hit (bs : List Byte) (row0 col0 : Nat) (p : Framebuffer × Bool) :
    (drawRows bs row0 col0 p).2 = true ↔
      p.2 = true ∨ ∃ r c, rowsCover bs row0 col0 r c ∧ pixel p.1 r c = true := by
  induction bs generalizing row0 p with
  | nil =>
    refine ⟨.inl, fun h => h.elim id ?_⟩
    rintro ⟨r, c, h, _⟩
    exact absurd h.2.2.2.1 (by simp)
  | cons b bs ih =>
    have hrow := drawRowPart_hit row0 col0 b 8 p
    rw [drawRows, ih]
    constructor
    · rintro (h | ⟨r, c, h, h'⟩)
      · rcases hrow.1 h with h | ⟨r, c, h, h'⟩
        · exact .inl h
        · exact .inr ⟨r, c, (rowsCover_cons ..).2 (.inl h), h'⟩
      · refine .inr ⟨r, c, (rowsCover_cons ..).2 (.inr h), ?_⟩
        exact ((drawRowPart_pixel row0 col0 b 8 p r c).2 fun h'' => rowsCover_disjoint h'' h) ▸ h'
    · rintro (h | ⟨r, c, h, h'⟩)
      · exact .inl (hrow.2 (.inl h))
      · rcases (rowsCover_cons ..).1 h with h | h
        · exact .inl (hrow.2 (.inr ⟨r, c, h, h'⟩))
        · refine .inr ⟨r, c, h, ?_⟩
          exact ((drawRowPart_pixel row0 col0 b 8 p r c).2 fun h'' => rowsCover_disjoint h'' h).trans h'

/-- The bytes read from memory cover what `spriteCovers` says. -/
theorem rowsCover_readBytes (m : Memory) (a n row0 col0 : Nat) (r : Fin 32) (c : Fin 64) :
    rowsCover (readBytes m a n) row0 col0 r c ↔ spriteCovers m a n row0 col0 r c := by
  unfold rowsCover spriteCovers spriteBit
  constructor
  · rintro ⟨h1, h2, h3, h4, h5⟩
    simp only [readBytes, List.getElem_map, List.getElem_range, List.length_map, List.length_range] at h4 h5
    exact ⟨h1, by omega, h2, h3, h5⟩
  · rintro ⟨h1, h2, h3, h4, h5⟩
    refine ⟨h1, h3, h4, ?_, ?_⟩
    · simp only [readBytes, List.length_map, List.length_range]; omega
    · simp only [readBytes, List.getElem_map, List.getElem_range]; exact h5

/-- Two framebuffers with the same pixels are equal. -/
theorem framebuffer_ext {f g : Framebuffer} (h : ∀ r c, pixel f r c = pixel g r c) : f = g := by
  apply Vector.ext
  intro i hi
  apply Vector.ext
  intro j hj
  exact h ⟨i, hi⟩ ⟨j, hj⟩

end Sys2Proof.Machine
end

