-- ==== Sys2Proof/Laws/Meanings.lean ====
section
/-!
SUPPORT. The meanings that check something first, as one equation each over the shared operations: a caller cites these and
unfolds neither the check nor the meaning.
-/
namespace Sys2Proof.Machine

theorem memRead_of_fits (m : Memory) {a n : Nat} (h : AccessFits a n) : memRead m a n = .ok (readBytes m a n) := by
  rw [memRead_eq]; exact if_pos h

theorem memRead_of_not_fits (m : Memory) {a n : Nat} (h : ¬ AccessFits a n) :
    memRead m a n = .error (.memoryOutOfBounds (reportedAddress a)) := by
  rw [memRead_eq]; exact if_neg h

theorem memWrite_of_fits (m : Memory) {a : Nat} {bs : List Byte} (h : AccessFits a bs.length) :
    memWrite m a bs = .ok (writeBytes m a bs) := by
  rw [memWrite_eq]; exact if_pos h

theorem memWrite_of_not_fits (m : Memory) {a : Nat} {bs : List Byte} (h : ¬ AccessFits a bs.length) :
    memWrite m a bs = .error (.memoryOutOfBounds (reportedAddress a)) := by
  rw [memWrite_eq]; exact if_neg h

@[simp] theorem regBlock_length (x : RegNum) (s : State) : (regBlock x s).length = x.toNat + 1 := by simp [regBlock]

@[simp] theorem regBlock_getElem (x : RegNum) (s : State) (k : Nat) (h : k < (regBlock x s).length) :
    (regBlock x s)[k] = readReg s (BitVec.ofNat 4 k) := by simp [regBlock]

/-! ### CALL and RET -/

theorem execCall_of_lt (nnn : Addr12) {s : State} (h : s.sp.toNat < 16) :
    execCall nnn s = .next (setPc (addrOf nnn) { s with stack := s.stack.set s.sp.toNat s.pc h, sp := s.sp + 1 }) := by
  simp only [execCall, pushEntry_of_lt h]

theorem execCall_of_full (nnn : Addr12) {s : State} (h : s.sp.toNat = 16) : execCall nnn s = .fault .stackOverflow := by
  simp only [execCall, pushEntry_of_full h]

theorem execRet_of_pos {s : State} {j : Nat} (hj : j < 16) (h : s.sp.toNat = j + 1) :
    execRet s = .next (setPc (s.stack[j]'hj + 2) { s with sp := s.sp - 1 }) := by
  simp only [execRet, popEntry_of_pos hj h]

theorem execRet_of_zero {s : State} (h : s.sp.toNat = 0) : execRet s = .fault .stackUnderflow := by
  simp only [execRet, popEntry_of_zero h]

/-- What CALL has done when it answers a next state. -/
theorem execCall_eq_next {nnn : Addr12} {s t : State} (h : execCall nnn s = .next t) :
    ∃ hs : s.sp.toNat < 16, t = setPc (addrOf nnn) { s with stack := s.stack.set s.sp.toNat s.pc hs, sp := s.sp + 1 } := by
  rcases Nat.lt_trichotomy s.sp.toNat 16 with hs | hs | hs
  · rw [execCall_of_lt _ hs] at h; cases h; exact ⟨hs, rfl⟩
  · rw [execCall_of_full _ hs] at h; cases h
  · rw [execCall, pushEntry_of_gt hs] at h; cases h

/-- What RET has done when it answers a next state. -/
theorem execRet_eq_next {s t : State} (h : execRet s = .next t) :
    ∃ (j : Nat) (hj : j < 16), s.sp.toNat = j + 1 ∧ t = setPc (s.stack[j]'hj + 2) { s with sp := s.sp - 1 } := by
  by_cases h0 : s.sp.toNat = 0
  · rw [execRet_of_zero h0] at h; cases h
  · by_cases h16 : s.sp.toNat ≤ 16
    · rw [execRet_of_pos (j := s.sp.toNat - 1) (by omega) (by omega)] at h
      cases h
      exact ⟨s.sp.toNat - 1, by omega, by omega, rfl⟩
    · rw [execRet, popEntry_of_gt (by omega)] at h; cases h

/-! ### The four memory instructions -/

theorem execDrw_eq (x y : RegNum) (n : Nibble) (s : State) :
    execDrw x y n s =
      if AccessFits s.i.toNat n.toNat then
        .next (advance (writeFlag
          (drawSprite (readBytes s.mem s.i.toNat n.toNat) (originRow (readReg s y)) (originCol (readReg s x)) s.fb).2
          (setScreen
            (drawSprite (readBytes s.mem s.i.toNat n.toNat) (originRow (readReg s y)) (originCol (readReg s x)) s.fb).1 s)))
      else .fault (.memoryOutOfBounds (reportedAddress s.i.toNat)) := by
  split
  · next h => simp only [execDrw, indexAddr, memRead_of_fits s.mem h, orRaise_ok]
  · next h => simp only [execDrw, indexAddr, memRead_of_not_fits s.mem h, orRaise_error]

theorem execLdB_eq (x : RegNum) (s : State) :
    execLdB x s =
      if AccessFits s.i.toNat 3 then .next (advance (setMem (writeBytes s.mem s.i.toNat (bcdDigits (readReg s x))) s))
      else .fault (.memoryOutOfBounds (reportedAddress s.i.toNat)) := by
  have hl : (bcdDigits (readReg s x)).length = 3 := rfl
  split
  · next h => simp only [execLdB, indexAddr, memWrite_of_fits s.mem (hl ▸ h), orRaise_ok]
  · next h => simp only [execLdB, indexAddr, memWrite_of_not_fits s.mem (hl ▸ h), orRaise_error]

theorem execStRegs_eq (x : RegNum) (s : State) :
    execStRegs x s =
      if AccessFits s.i.toNat (x.toNat + 1) then .next (advance (setMem (writeBytes s.mem s.i.toNat (regBlock x s)) s))
      else .fault (.memoryOutOfBounds (reportedAddress s.i.toNat)) := by
  have hl := regBlock_length x s
  split
  · next h => simp only [execStRegs, indexAddr, memWrite_of_fits s.mem (hl ▸ h), orRaise_ok]
  · next h => simp only [execStRegs, indexAddr, memWrite_of_not_fits s.mem (hl ▸ h), orRaise_error]

theorem execLdRegs_eq (x : RegNum) (s : State) :
    execLdRegs x s =
      if AccessFits s.i.toNat (x.toNat + 1) then
        .next (advance (writeRegs 0 (readBytes s.mem s.i.toNat (x.toNat + 1)) s))
      else .fault (.memoryOutOfBounds (reportedAddress s.i.toNat)) := by
  split
  · next h => simp only [execLdRegs, indexAddr, memRead_of_fits s.mem h, orRaise_ok]
  · next h => simp only [execLdRegs, indexAddr, memRead_of_not_fits s.mem h, orRaise_error]

/-! ### The lowest key down -/

theorem lowestKeyDown_none {s : State} (h : ∀ k, keyDown s k = false) : lowestKeyDown s = none := by
  simp [lowestKeyDown, h]

theorem lowestKeyDown_some {s : State} {k : Nibble} (h : keyDown s k = true)
    (hmin : ∀ j, keyDown s j = true → k.toNat ≤ j.toNat) : lowestKeyDown s = some k := by
  unfold lowestKeyDown
  rw [List.find?_eq_some_iff_append]
  refine ⟨h, (List.range k.toNat).map (BitVec.ofNat 4),
    (List.range (15 - k.toNat)).map (fun j => BitVec.ofNat 4 (k.toNat + 1 + j)), ?_, ?_⟩
  · clear h hmin; revert k; decide
  · intro a ha
    obtain ⟨j, hj, rfl⟩ := List.mem_map.1 ha
    have hj := List.mem_range.1 hj
    rw [Bool.not_eq_true']
    by_contra hc
    have h1 := hmin _ (by simpa using hc)
    have h2 := k.isLt
    rw [BitVec.toNat_ofNat] at h1
    omega

/-- What LD Vx, K has done when it answers a next state: it took a key, or it waits in the same state. -/
theorem execLdVxK_eq_next {x : RegNum} {s t : State} (h : execLdVxK x s = .next t) :
    s.keywaitMode = .wait ∧
      ((∃ k, lowestKeyDown s = some k ∧ t = advance (writeReg x (k.zeroExtend 8) s)) ∨ (lowestKeyDown s = none ∧ t = s)) := by
  unfold execLdVxK at h
  split at h
  · cases h
  · next hm => split at h <;> cases h <;> simp [*]

/-! ### Fetch and STEP -/

theorem fetch_of_fits {s : State} (h : s.pc.toNat + 1 < 4096) :
    fetch s = .ok (wordOfBytes (readByte s.mem s.pc.toNat) (readByte s.mem (s.pc.toNat + 1))) := by
  rw [fetch, memRead_of_fits s.mem (show AccessFits s.pc.toNat 2 from .inr (by omega))]
  rfl

theorem fetch_of_not_fits {s : State} (h : 4095 ≤ s.pc.toNat) :
    fetch s = .error (.memoryOutOfBounds (reportedAddress s.pc.toNat)) := by
  rw [fetch, memRead_of_not_fits s.mem (show ¬ AccessFits s.pc.toNat 2 by omega)]

/-- A word was fetched only from a pc below 4095. -/
theorem pc_of_fetch {s : State} {w : Word} (h : fetch s = .ok w) : s.pc.toNat < 4095 := by
  by_contra hc
  rw [fetch_of_not_fits (by omega)] at h
  cases h

/-- An instruction was fetched and decoded only from a pc below 4095. -/
theorem pc_of_fetchDecode {s : State} {i : Instr} (h : fetchDecode s = .ok i) : s.pc.toNat < 4095 := by
  unfold fetchDecode at h
  split at h
  · next w hw => exact pc_of_fetch hw
  · cases h

/-- Fetch and decode depend on pc and memory alone. -/
theorem fetchDecode_congr {s t : State} (hpc : t.pc = s.pc) (hmem : t.mem = s.mem) : fetchDecode t = fetchDecode s := by
  simp only [fetchDecode, fetch, hpc, hmem]

/-! ### Which operation a step performs -/

theorem step_of_script {s : State} {op : HostOp} {rest : List HostOp} (h : s.script = op :: rest) :
    step s = perform op { s with script := rest } := by simp only [step, nextOperation, h]

theorem step_of_stepping {s : State} (h : s.script = []) (hd : s.driver = .stepping) : step s = instrStep s := by
  simp only [step, nextOperation, h, hd]

theorem step_of_free {s : State} {n : Nat} (h : s.script = []) (hd : s.driver = .free n) :
    step s = perform (Config.driverOp n) { s with driver := .free (n + 1) } := by simp only [step, nextOperation, h, hd]

theorem afterError_of_stepping {s : State} (h : s.script = []) (hd : s.driver = .stepping) : afterError s = s := by
  simp only [afterError, h, hd]

/-! ### STEP -/

theorem instrStep_of_ok {s : State} {i : Instr} (h : fetchDecode s = .ok i) : instrStep s = exec i s := by
  rw [instrStep, h]; rfl

theorem instrStep_of_error {s : State} {f : Fault} (h : fetchDecode s = .error f) : instrStep s = .fault f := by
  rw [instrStep, h]; rfl

end Sys2Proof.Machine
end

