-- ==== Sys2Proof/Laws/PerInstr.lean ====
section
/-!
SUPPORT. Statements about every instruction as syntax, one lemma per constructor.
-/
namespace Sys2Proof.Laws

/-- Masking the words of two formats keeps or drops whole fields. -/
theorem append_and_append {m n : Nat} (a c : BitVec m) (b d : BitVec n) : (a ++ b) &&& (c ++ d) = (a &&& c) ++ (b &&& d) := by
  ext i hi
  simp only [BitVec.getElem_and, BitVec.getElem_append]
  split <;> simp

theorem formatNNN_mask (op : Nibble) (nnn : Addr12) : formatNNN op nnn &&& 0xF000 = formatNNN op 0 := by
  have h : (0xF000 : Word) = formatNNN 0xF 0 := rfl
  rw [h, formatNNN, formatNNN, append_and_append]
  have h1 : op &&& 0xF = op := BitVec.and_allOnes
  have h2 : nnn &&& 0 = 0 := BitVec.and_zero
  rw [h1, h2]; rfl

theorem formatXNN_mask (op : Nibble) (x : RegNum) (nn : Byte) : formatXNN op x nn &&& 0xF000 = formatNNN op 0 := by
  have h : formatXNN op x nn = formatNNN op (x ++ nn) := rfl
  rw [h, formatNNN_mask]

theorem formatXYN_mask (op : Nibble) (x y : RegNum) (n : Nibble) : formatXYN op x y n &&& 0xF000 = formatNNN op 0 := by
  have h : formatXYN op x y n = formatNNN op (x ++ (y ++ n)) := rfl
  rw [h, formatNNN_mask]

theorem formatXNN_mask_low (op : Nibble) (x : RegNum) (nn : Byte) :
    formatXNN op x nn &&& 0xF0FF = formatXNN op 0 nn := by
  have h : (0xF0FF : Word) = formatXNN 0xF 0 0xFF := rfl
  rw [h, formatXNN, formatXNN, formatXNN, append_and_append, append_and_append]
  have h1 : op &&& 0xF = op := BitVec.and_allOnes
  have h2 : x &&& 0 = 0 := BitVec.and_zero
  have h3 : nn &&& 0xFF = nn := BitVec.and_allOnes
  rw [h1, h2, h3]

theorem formatXYN_mask_low (op : Nibble) (x y : RegNum) (n : Nibble) :
    formatXYN op x y n &&& 0xF00F = formatXYN op 0 0 n := by
  have h : (0xF00F : Word) = formatXYN 0xF 0 0 0xF := rfl
  rw [h, formatXYN, formatXYN, formatXYN, append_and_append, append_and_append, append_and_append]
  have h1 : op &&& 0xF = op := BitVec.and_allOnes
  have h2 : x &&& 0 = 0 := BitVec.and_zero
  have h3 : y &&& 0 = 0 := BitVec.and_zero
  have h4 : n &&& 0xF = n := BitVec.and_allOnes
  rw [h1, h2, h3, h4]

/-! Which fields a masked word fixes, mask by mask. -/

theorem fields_of_mask_op {w m : Word} (h : w &&& 0xF000 = m) : opField w = opField m := by
  rw [← h, ← formatNNN_fields w, formatNNN_mask]; simp

theorem fields_of_mask_low_byte {w m : Word} (h : w &&& 0xF0FF = m) : opField w = opField m ∧ nnField w = nnField m := by
  rw [← h, ← formatXNN_fields w, formatXNN_mask_low]; simp

theorem fields_of_mask_low_nibble {w m : Word} (h : w &&& 0xF00F = m) : opField w = opField m ∧ nField w = nField m := by
  rw [← h, ← formatXYN_fields w, formatXYN_mask_low]; simp

namespace EncodesInRow

/-- The word of a well-formed instruction selects that instruction's row of 30_encoding.md R88. -/
def Statement (i : Instr) : Prop := i.wellFormed = true → i.tag.selects (encode i) = true

theorem cls : Statement .cls := fun _ => rfl

theorem ret : Statement .ret := fun _ => rfl

theorem sys (nnn : Addr12) : Statement (.sys nnn) := fun h => by
  simp only [Instr.wellFormed, Bool.and_eq_true, bne_iff_ne] at h
  have h1 : formatNNN 0x0 nnn ≠ 0x00E0 := fun e => h.1 ((nnnField_formatNNN 0x0 nnn).symm.trans (congrArg nnnField e))
  have h2 : formatNNN 0x0 nnn ≠ 0x00EE := fun e => h.2 ((nnnField_formatNNN 0x0 nnn).symm.trans (congrArg nnnField e))
  simp only [OpcodeTag.selects, Instr.tag, OpcodeTag.maskMatch, encode, formatNNN_mask, bne_iff_ne.2 h1, bne_iff_ne.2 h2]
  rfl

theorem jp (nnn : Addr12) : Statement (.jp nnn) := fun _ => by
  simp only [OpcodeTag.selects, Instr.tag, OpcodeTag.maskMatch, encode, formatNNN_mask]
  rfl

theorem call (nnn : Addr12) : Statement (.call nnn) := fun _ => by
  simp only [OpcodeTag.selects, Instr.tag, OpcodeTag.maskMatch, encode, formatNNN_mask]
  rfl

theorem seImm (x : RegNum) (nn : Byte) : Statement (.seImm x nn) := fun _ => by
  simp only [OpcodeTag.selects, Instr.tag, OpcodeTag.maskMatch, encode, formatXNN_mask]
  rfl

theorem sneImm (x : RegNum) (nn : Byte) : Statement (.sneImm x nn) := fun _ => by
  simp only [OpcodeTag.selects, Instr.tag, OpcodeTag.maskMatch, encode, formatXNN_mask]
  rfl

theorem seReg (x y : RegNum) (z : Nibble) : Statement (.seReg x y z) := fun _ => by
  simp only [OpcodeTag.selects, Instr.tag, OpcodeTag.maskMatch, encode, formatXYN_mask]
  rfl

theorem ldImm (x : RegNum) (nn : Byte) : Statement (.ldImm x nn) := fun _ => by
  simp only [OpcodeTag.selects, Instr.tag, OpcodeTag.maskMatch, encode, formatXNN_mask]
  rfl

theorem addImm (x : RegNum) (nn : Byte) : Statement (.addImm x nn) := fun _ => by
  simp only [OpcodeTag.selects, Instr.tag, OpcodeTag.maskMatch, encode, formatXNN_mask]
  rfl

theorem ldReg (x y : RegNum) : Statement (.ldReg x y) := fun _ => by
  simp only [OpcodeTag.selects, Instr.tag, OpcodeTag.maskMatch, encode, formatXYN_mask_low]
  rfl

theorem orReg (x y : RegNum) : Statement (.orReg x y) := fun _ => by
  simp only [OpcodeTag.selects, Instr.tag, OpcodeTag.maskMatch, encode, formatXYN_mask_low]
  rfl

theorem andReg (x y : RegNum) : Statement (.andReg x y) := fun _ => by
  simp only [OpcodeTag.selects, Instr.tag, OpcodeTag.maskMatch, encode, formatXYN_mask_low]
  rfl

theorem xorReg (x y : RegNum) : Statement (.xorReg x y) := fun _ => by
  simp only [OpcodeTag.selects, Instr.tag, OpcodeTag.maskMatch, encode, formatXYN_mask_low]
  rfl

theorem addReg (x y : RegNum) : Statement (.addReg x y) := fun _ => by
  simp only [OpcodeTag.selects, Instr.tag, OpcodeTag.maskMatch, encode, formatXYN_mask_low]
  rfl

theorem sub (x y : RegNum) : Statement (.sub x y) := fun _ => by
  simp only [OpcodeTag.selects, Instr.tag, OpcodeTag.maskMatch, encode, formatXYN_mask_low]
  rfl

theorem shr (x y : RegNum) : Statement (.shr x y) := fun _ => by
  simp only [OpcodeTag.selects, Instr.tag, OpcodeTag.maskMatch, encode, formatXYN_mask_low]
  rfl

theorem subn (x y : RegNum) : Statement (.subn x y) := fun _ => by
  simp only [OpcodeTag.selects, Instr.tag, OpcodeTag.maskMatch, encode, formatXYN_mask_low]
  rfl

theorem shl (x y : RegNum) : Statement (.shl x y) := fun _ => by
  simp only [OpcodeTag.selects, Instr.tag, OpcodeTag.maskMatch, encode, formatXYN_mask_low]
  rfl

theorem sneReg (x y : RegNum) (z : Nibble) : Statement (.sneReg x y z) := fun _ => by
  simp only [OpcodeTag.selects, Instr.tag, OpcodeTag.maskMatch, encode, formatXYN_mask]
  rfl

theorem ldI (nnn : Addr12) : Statement (.ldI nnn) := fun _ => by
  simp only [OpcodeTag.selects, Instr.tag, OpcodeTag.maskMatch, encode, formatNNN_mask]
  rfl

theorem jpV0 (nnn : Addr12) : Statement (.jpV0 nnn) := fun _ => by
  simp only [OpcodeTag.selects, Instr.tag, OpcodeTag.maskMatch, encode, formatNNN_mask]
  rfl

theorem rnd (x : RegNum) (nn : Byte) : Statement (.rnd x nn) := fun _ => by
  simp only [OpcodeTag.selects, Instr.tag, OpcodeTag.maskMatch, encode, formatXNN_mask]
  rfl

theorem drw (x y : RegNum) (n : Nibble) : Statement (.drw x y n) := fun _ => by
  simp only [OpcodeTag.selects, Instr.tag, OpcodeTag.maskMatch, encode, formatXYN_mask]
  rfl

theorem skp (x : RegNum) : Statement (.skp x) := fun _ => by
  simp only [OpcodeTag.selects, Instr.tag, OpcodeTag.maskMatch, encode, formatXNN_mask_low]
  rfl

theorem sknp (x : RegNum) : Statement (.sknp x) := fun _ => by
  simp only [OpcodeTag.selects, Instr.tag, OpcodeTag.maskMatch, encode, formatXNN_mask_low]
  rfl

theorem ldVxDt (x : RegNum) : Statement (.ldVxDt x) := fun _ => by
  simp only [OpcodeTag.selects, Instr.tag, OpcodeTag.maskMatch, encode, formatXNN_mask_low]
  rfl

theorem ldVxK (x : RegNum) : Statement (.ldVxK x) := fun _ => by
  simp only [OpcodeTag.selects, Instr.tag, OpcodeTag.maskMatch, encode, formatXNN_mask_low]
  rfl

theorem ldDtVx (x : RegNum) : Statement (.ldDtVx x) := fun _ => by
  simp only [OpcodeTag.selects, Instr.tag, OpcodeTag.maskMatch, encode, formatXNN_mask_low]
  rfl

theorem ldStVx (x : RegNum) : Statement (.ldStVx x) := fun _ => by
  simp only [OpcodeTag.selects, Instr.tag, OpcodeTag.maskMatch, encode, formatXNN_mask_low]
  rfl

theorem addI (x : RegNum) : Statement (.addI x) := fun _ => by
  simp only [OpcodeTag.selects, Instr.tag, OpcodeTag.maskMatch, encode, formatXNN_mask_low]
  rfl

theorem ldF (x : RegNum) : Statement (.ldF x) := fun _ => by
  simp only [OpcodeTag.selects, Instr.tag, OpcodeTag.maskMatch, encode, formatXNN_mask_low]
  rfl

theorem ldB (x : RegNum) : Statement (.ldB x) := fun _ => by
  simp only [OpcodeTag.selects, Instr.tag, OpcodeTag.maskMatch, encode, formatXNN_mask_low]
  rfl

theorem stRegs (x : RegNum) : Statement (.stRegs x) := fun _ => by
  simp only [OpcodeTag.selects, Instr.tag, OpcodeTag.maskMatch, encode, formatXNN_mask_low]
  rfl

theorem ldRegs (x : RegNum) : Statement (.ldRegs x) := fun _ => by
  simp only [OpcodeTag.selects, Instr.tag, OpcodeTag.maskMatch, encode, formatXNN_mask_low]
  rfl

end EncodesInRow
end Sys2Proof.Laws
end

