-- ==== Sys2Proof/Tests/Slice0.lean ====
section
/-!
SUPPORT. The model's own tests: well-formedness, decoding of words written out from 30_encoding.md R88, single steps with
the results of 95_test_vectors.md, and for every statement with hypotheses a state and operands that meet them.
-/
namespace Sys2Proof.Tests
open Sys2Proof Sys2Proof.Machine

/-! ### Helpers -/

/-- The state `s` with the instruction word `w` at its pc. -/
def put (w : Nat) (s : State) : State := s.withFetchWord 16 w

/-- The reset state, changed by `f`, with the instruction word `w` at pc. -/
def start (f : State → State) (w : Nat) : State := put w (f State.reset)

/-- What `get` sees in the next state, if there is one. -/
def see {α : Type} (get : State → α) : Result → Option α
  | .next t => some (get t)
  | .fault _ => none
  | .refused _ => none

/-- The error of an outcome, if it is one. -/
def errorOf : Result → Option Fault
  | .fault f => some f
  | .next _ => none
  | .refused _ => none

/-- V[x], VF and pc. -/
def xfp (x : RegNum) (t : State) : Byte × Byte × Word := (readReg t x, readReg t VF, t.pc)

def withI (a : Word) (s : State) : State := { s with i := a }
def withPc (a : Word) (s : State) : State := { s with pc := a }
def withSp (n : Word) (s : State) : State := { s with sp := n }
def withDt (b : Byte) (s : State) : State := { s with dt := b }
def withMode (m : KeywaitMode) (s : State) : State := { s with keywaitMode := m }
def withSupply (bs : List Byte) (s : State) : State := { s with rndSupply := bs }
def withScript (ops : List HostOp) (s : State) : State := { s with script := ops }
def withBytes (a : Nat) (bs : List Byte) (s : State) : State := { s with mem := writeBytes s.mem a bs }
def withDriver (d : Driver) (s : State) : State := { s with driver := d }
def allOn (s : State) : State := { s with fb := Vector.replicate 32 (Vector.replicate 64 true) }

/-- The state after `n` steps, if the run gets there. -/
def after (n : Nat) (s : State) : State :=
  match core.run n s with
  | .next t => t
  | .fault _ => s
  | .refused _ => s

/-- The lit columns among 0..7 of a row. -/
def litLow (row : Fin 32) (t : State) : List Nat := (List.range 8).filter fun c => pixel t.fb row (Fin.ofNat 64 c)

/-- The lit columns among 56..63 of a row. -/
def litHigh (row : Fin 32) (t : State) : List Nat :=
  ((List.range 8).map (· + 56)).filter fun c => pixel t.fb row (Fin.ofNat 64 c)

/-! ### Well-formedness (R85) -/

theorem test_sys_of_cls_code_ill_formed : (Instr.sys 0x0E0).wellFormed = false := by decide
theorem test_sys_of_ret_code_ill_formed : (Instr.sys 0x0EE).wellFormed = false := by decide
theorem test_sys_well_formed : (Instr.sys 0x0E1).wellFormed = true := by decide

/-! ### Decoding, every row of R88, words written out digit by digit -/

theorem test_decode_family0 :
    decodeTableWord 16 0x00E0 = some (.cls) ∧
    decodeTableWord 16 0x00EE = some (.ret) ∧
    decodeTableWord 16 0x0123 = some (.sys 0x123) ∧
    decodeTableWord 16 0x0000 = some (.sys 0x000) ∧
    decodeTableWord 16 0x00E1 = some (.sys 0x0E1) := by decide

theorem test_decode_jumps :
    decodeTableWord 16 0x1ABC = some (.jp 0xABC) ∧
    decodeTableWord 16 0x2ABC = some (.call 0xABC) ∧
    decodeTableWord 16 0xB300 = some (.jpV0 0x300) := by decide

theorem test_decode_skips :
    decodeTableWord 16 0x3A42 = some (.seImm 0xA 0x42) ∧
    decodeTableWord 16 0x4A42 = some (.sneImm 0xA 0x42) ∧
    decodeTableWord 16 0x512F = some (.seReg 1 2 0xF) ∧
    decodeTableWord 16 0x912F = some (.sneReg 1 2 0xF) := by decide

theorem test_decode_immediates :
    decodeTableWord 16 0x6C5A = some (.ldImm 0xC 0x5A) ∧
    decodeTableWord 16 0x7F01 = some (.addImm 0xF 0x01) := by decide

theorem test_decode_family8 :
    decodeTableWord 16 0x8120 = some (.ldReg 1 2) ∧
    decodeTableWord 16 0x8121 = some (.orReg 1 2) ∧
    decodeTableWord 16 0x8122 = some (.andReg 1 2) ∧
    decodeTableWord 16 0x8123 = some (.xorReg 1 2) ∧
    decodeTableWord 16 0x8124 = some (.addReg 1 2) ∧
    decodeTableWord 16 0x8125 = some (.sub 1 2) ∧
    decodeTableWord 16 0x8126 = some (.shr 1 2) ∧
    decodeTableWord 16 0x8127 = some (.subn 1 2) ∧
    decodeTableWord 16 0x8FFE = some (.shl 0xF 0xF) := by decide

theorem test_decode_index_random_draw :
    decodeTableWord 16 0xAFFF = some (.ldI 0xFFF) ∧
    decodeTableWord 16 0xC30F = some (.rnd 3 0x0F) ∧
    decodeTableWord 16 0xD015 = some (.drw 0 1 5) := by decide

theorem test_decode_keypad :
    decodeTableWord 16 0xE59E = some (.skp 5) ∧
    decodeTableWord 16 0xE5A1 = some (.sknp 5) ∧
    decodeTableWord 16 0xF30A = some (.ldVxK 3) := by decide

theorem test_decode_timers :
    decodeTableWord 16 0xF107 = some (.ldVxDt 1) ∧
    decodeTableWord 16 0xF215 = some (.ldDtVx 2) ∧
    decodeTableWord 16 0xF318 = some (.ldStVx 3) := by decide

theorem test_decode_transfers :
    decodeTableWord 16 0xF21E = some (.addI 2) ∧
    decodeTableWord 16 0xFA29 = some (.ldF 0xA) ∧
    decodeTableWord 16 0xF733 = some (.ldB 7) ∧
    decodeTableWord 16 0xF255 = some (.stRegs 2) ∧
    decodeTableWord 16 0xFF65 = some (.ldRegs 0xF) := by decide

theorem test_decode_illegal :
    decodeWord 0x8128 = .error (.unknownOpcode 0x8128) ∧ decodeWord 0xE09F = .error (.unknownOpcode 0xE09F) ∧
    decodeWord 0xF000 = .error (.unknownOpcode 0xF000) ∧ decodeWord 0xFFFF = .error (.unknownOpcode 0xFFFF) := by decide

theorem test_decode_bytes_high_byte_first : decode [0x12, 0x34, 0x56] = .ok (.jp 0x234, [0x56]) := by decide

theorem test_text : (Instr.addImm 12 0x5A).text = "ADD VC, 0x5A" ∧ (Instr.jpV0 0x300).text = "JP V0, 0x300" := by decide +kernel

theorem test_decode_truncated : decode [0x12] = .error (.truncated 1) := by decide

/-! ### Single steps, from 95_test_vectors.md (the vector is named) -/

/- Control transfer: V40.1, V40.4 to V40.12, S2. -/
theorem test_jp : 
    see State.pc (step (start id 0x1ABC)) = some 0xABC := by decide

theorem test_call : 
    see (fun t => (t.stack[0], t.sp, t.pc)) (step (start id 0x2ABC)) = some (0x200, 1, 0xABC) := by decide

theorem test_call_full : 
    errorOf (step (start (withSp 16) 0x2ABC)) = some .stackOverflow := by decide

theorem test_ret_after_call : 
    see (fun t => (t.sp, t.pc)) (step (put 0x00EE (after 1 (start id 0x2300)))) = some (0, 0x202) := by decide +kernel

theorem test_ret_empty : 
    errorOf (step (start id 0x00EE)) = some .stackUnderflow := by decide

theorem test_jpV0_no_mask : 
    see State.pc (step (start (writeReg 0 0xFF) 0xBFFF)) = some 0x10FE := by decide

theorem test_sys : 
    see (fun t => (t.pc, pixel t.fb 31 63)) (step (start allOn 0x00E1)) = some (0x202, true) := by decide

/- Skips: V41.1 to V41.12. -/
theorem test_seImm : 
    see State.pc (step (start (writeReg 10 0x42) 0x3A42)) = some 0x204 := by decide

theorem test_seImm_differs : 
    see State.pc (step (start (writeReg 10 0x43) 0x3A42)) = some 0x202 := by decide

theorem test_sneImm : 
    see State.pc (step (start (writeReg 10 0x43) 0x4A42)) = some 0x204 := by decide

theorem test_sneImm_equal : 
    see State.pc (step (start (writeReg 10 0x42) 0x4A42)) = some 0x202 := by decide

theorem test_seReg : 
    see State.pc (step (start (writeReg 1 7 ∘ writeReg 2 7) 0x5121)) = some 0x204 := by decide

theorem test_seReg_differs : 
    see State.pc (step (start (writeReg 1 7 ∘ writeReg 2 8) 0x5120)) = some 0x202 := by decide

theorem test_sneReg : 
    see State.pc (step (start (writeReg 1 7 ∘ writeReg 2 8) 0x912F)) = some 0x204 := by decide

theorem test_sneReg_equal : 
    see State.pc (step (start (writeReg 1 7 ∘ writeReg 2 7) 0x9120)) = some 0x202 := by decide

/- Immediates: V42.1, V42.2, V42.3, V42.5. -/
theorem test_ldImm : 
    see (xfp 12) (step (start (writeReg 12 0xFF) 0x6C5A)) = some (0x5A, 0x00, 0x202) := by decide

theorem test_ldImm_VF : 
    see (xfp 15) (step (start id 0x6F77)) = some (0x77, 0x77, 0x202) := by decide

theorem test_addImm_no_carry_flag : 
    see (xfp 0) (step (start (writeReg 0 0xFF) 0x7001)) = some (0x00, 0x00, 0x202) := by decide

theorem test_addImm_VF : 
    see (xfp 15) (step (start (writeReg 15 0xFF) 0x7F01)) = some (0x00, 0x00, 0x202) := by decide

/- Register to register: V43.1 to V43.21, S3, S4. -/
theorem test_ldReg : 
    see (xfp 1) (step (start (writeReg 1 0x11 ∘ writeReg 2 0x22 ∘ writeReg 15 0x33) 0x8120)) = some (0x22, 0x33, 0x202) := by decide

theorem test_orReg : 
    see (xfp 1) (step (start (writeReg 1 0x0F ∘ writeReg 2 0xF0 ∘ writeReg 15 0x33) 0x8121)) = some (0xFF, 0x33, 0x202) := by decide

theorem test_andReg : 
    see (xfp 1) (step (start (writeReg 1 0x3C ∘ writeReg 2 0x0F ∘ writeReg 15 0x33) 0x8122)) = some (0x0C, 0x33, 0x202) := by decide

theorem test_xorReg : 
    see (xfp 1) (step (start (writeReg 1 0xFF ∘ writeReg 2 0x0F ∘ writeReg 15 0x33) 0x8123)) = some (0xF0, 0x33, 0x202) := by decide

theorem test_addReg_carry : 
    see (xfp 0) (step (start (writeReg 0 0xFF ∘ writeReg 1 0x01) 0x8014)) = some (0x00, 0x01, 0x202) := by decide

theorem test_addReg_VF : 
    see (xfp 15) (step (start (writeReg 15 0x01 ∘ writeReg 1 0x01) 0x8F14)) = some (0x00, 0x00, 0x202) := by decide

theorem test_sub_borrow : 
    see (xfp 0) (step (start (writeReg 0 0x03 ∘ writeReg 1 0x05) 0x8015)) = some (0xFE, 0x00, 0x202) := by decide

theorem test_sub_VF : 
    see (xfp 15) (step (start (writeReg 15 5 ∘ writeReg 1 3) 0x8F15)) = some (0x01, 0x01, 0x202) := by decide

theorem test_shr_ignores_y : 
    see (xfp 0) (step (start (writeReg 0 0x05 ∘ writeReg 1 0xFE) 0x8016)) = some (0x02, 0x01, 0x202) := by decide

theorem test_shr_VF : 
    see (xfp 15) (step (start (writeReg 15 0x02) 0x8F06)) = some (0x00, 0x00, 0x202) := by decide

theorem test_subn : 
    see (xfp 0) (step (start (writeReg 0 0x05 ∘ writeReg 1 0x03) 0x8017)) = some (0xFE, 0x00, 0x202) := by decide

theorem test_subn_equal : 
    see (xfp 0) (step (start (writeReg 0 5 ∘ writeReg 1 5) 0x8017)) = some (0x00, 0x01, 0x202) := by decide

theorem test_shl_ignores_y : 
    see (xfp 0) (step (start (writeReg 0 0xFF) 0x801E)) = some (0xFE, 0x01, 0x202) := by decide

theorem test_shl_VF : 
    see (xfp 15) (step (start (writeReg 15 0x41) 0x8F0E)) = some (0x00, 0x00, 0x202) := by decide

/- Index and random: V44.1, V44.3, V45.2, V45.4. -/
theorem test_ldI : 
    see (fun t => (t.i, t.pc)) (step (start (withI 0x1234) 0xAFFF)) = some (0x0FFF, 0x202) := by decide

theorem test_addI_wraps : 
    see (fun t => (t.i, readReg t VF, t.pc)) (step (start (withI 0xFFFF ∘ writeReg 0 2) 0xF01E)) = some (0x0001, 0x00, 0x202) := by decide

theorem test_rnd : 
    see (fun t => (xfp 3 t, t.rndSupply, t.draws)) (step (start (withSupply [0xA7]) 0xC30F)) = some ((0x07, 0x00, 0x202), [], 0) := by decide

theorem test_rnd_driver_byte : 
    see (xfp 15) (perform (.step 0xFF) (start id 0xCF81)) = some (0x81, 0x81, 0x202) := by decide

/- Screen: V46.1 (S5), V46.3, V46.11, V46.13. -/
theorem test_drw_font_zero :
    see (fun t => ((litLow 0 t, litLow 1 t, litLow 4 t), readReg t VF, t.pc)) (step (start id 0xD015)) =
      some (([0, 1, 2, 3], [0, 3], [0, 1, 2, 3]), 0x00, 0x202) := by decide +kernel

theorem test_drw_clips :
    see (fun t => (litHigh 30 t, litHigh 31 t, litLow 0 t, readReg t VF))
      (step (start (withI 0x00F ∘ writeReg 0 0x3E ∘ writeReg 1 0x1E) 0xD015)) = some ([62, 63], [], [], 0x00) := by
  decide +kernel

theorem test_cls :
    see (fun t => (litLow 0 t, litHigh 31 t, readReg t VF, t.pc)) (step (start (allOn ∘ writeReg 15 1) 0x00E0)) =
      some ([], [], 0x01, 0x202) := by decide +kernel

/- Keypad: V47.2 to V47.7. -/
theorem test_skp_low_nibble : 
    see State.pc (step (start (keyWrite 10 true ∘ writeReg 5 0x3A) 0xE59E)) = some 0x204 := by decide

theorem test_skp_up : 
    see State.pc (step (start (writeReg 5 0x0A) 0xE59E)) = some 0x202 := by decide

theorem test_sknp_up : 
    see State.pc (step (start (writeReg 5 0x0A) 0xE5A1)) = some 0x204 := by decide

theorem test_sknp_down : 
    see State.pc (step (start (keyWrite 10 true ∘ writeReg 5 0x0A) 0xE5A1)) = some 0x202 := by decide

theorem test_ldVxK_default : 
    errorOf (step (start id 0xF30A)) = some (.unimplementedOpcode .LD_VX_K) := by decide

theorem test_ldVxK_lowest : 
    see (xfp 3) (step (start (withMode .wait ∘ keyWrite 9 true ∘ keyWrite 7 true) 0xF30A)) = some (0x07, 0x00, 0x202) := by decide

/- Timers: V48.1 to V48.4. -/
theorem test_ldVxDt : 
    see (fun t => (xfp 1 t, t.dt)) (step (start (withDt 0x2A) 0xF107)) = some ((0x2A, 0x00, 0x202), 0x2A) := by decide

theorem test_ldDtVx : 
    see (fun t => (t.dt, t.st, t.pc)) (step (start (withDt 0x05 ∘ writeReg 0 0x3C) 0xF015)) = some (0x3C, 0x00, 0x202) := by decide

theorem test_ldStVx : 
    see (fun t => (t.dt, t.st, t.pc)) (step (start (withDt 0x09 ∘ writeReg 0 0x05) 0xF018)) = some (0x09, 0x05, 0x202) := by decide

theorem test_tick : 
    see (fun t => (t.dt, t.st, t.pc)) (perform .tick (withDt 0x3C (setSound 0x01 State.reset))) = some (0x3B, 0x00, 0x200) := by decide

theorem test_tick_floor : 
    see (fun t => (t.dt, t.st)) (perform .tick State.reset) = some (0x00, 0x00) := by decide

/- Font, BCD, blocks: V49.2, V49.4, V49.6, V49.8, V49.9, V49.12, V49.14. -/
theorem test_ldF_low_nibble : 
    see (fun t => (t.i, t.pc)) (step (start (writeReg 0 0x1A) 0xF029)) = some (0x0032, 0x202) := by decide

theorem test_ldB : 
    see (fun t => (readBytes t.mem 0x300 3, t.i, t.pc)) (step (start (withI 0x300 ∘ writeReg 0 254) 0xF033)) = some ([0x02, 0x05, 0x04], 0x300, 0x202) := by decide +kernel

theorem test_ldB_last_place : 
    see (fun t => (readBytes t.mem 0xFFD 3, t.i, t.pc)) (step (start (withI 0xFFD ∘ writeReg 0 255) 0xF033)) = some ([0x02, 0x05, 0x05], 0xFFD, 0x202) := by decide +kernel

theorem test_stRegs : 
    see (fun t => (readBytes t.mem 0xFFE 2, t.i, t.pc)) (step (start (withI 0xFFE ∘ writeReg 0 1 ∘ writeReg 1 2) 0xF155)) = some ([0x01, 0x02], 0xFFE, 0x202) := by decide +kernel

theorem test_stRegs_out_of_range : 
    errorOf (step (start (withI 0xFFE) 0xF255)) = some (.memoryOutOfBounds 0x1000) := by decide +kernel

theorem test_ldRegs :
    see (fun t => (readReg t 0, readReg t 1, readReg t 2, readReg t 3, t.i))
      (step (start (withI 0x300 ∘ withBytes 0x300 [0x11, 0x22, 0x33, 0x44] ∘ writeReg 3 0x99) 0xF265)) =
        some (0x11, 0x22, 0x33, 0x99, 0x300) := by decide +kernel

theorem test_ldRegs_font :
    see (fun t => (readReg t 0, readReg t 1)) (step (start id 0xF165)) = some (0xF0, 0x90) := by decide +kernel

/- Fetch, RESET and LOAD: V30.3, V30.6, V30.7, V70.1, V70.3. -/
theorem test_fetch_last_byte : 
    errorOf (step (withPc 0xFFF State.reset)) = some (.memoryOutOfBounds 0x1000) := by decide

theorem test_fetch_odd_pc : 
    see (xfp 0) (step (put 0x6007 (withPc 0x201 State.reset))) = some (0x07, 0x00, 0x203) := by decide

theorem test_fetch_illegal : 
    errorOf (step (start id 0x8128)) = some (.unknownOpcode 0x8128) := by decide

theorem test_reset_font : 
    readBytes State.reset.mem 0x04B 6 = [0xF0, 0x80, 0xF0, 0x80, 0x80, 0x00] := by decide

theorem test_load_too_large : 
    errorOf (perform (.load (List.replicate 3585 0)) State.reset) = some (.programTooLarge 3585) := by decide +kernel

theorem test_load_image : 
    see (fun t => readBytes t.mem 0x1FF 5) (perform (.load [0x12, 0x34, 0x56]) State.reset) =
      some [0x00, 0x12, 0x34, 0x56, 0x00] := by decide +kernel

/-! ### Witnesses: concrete states and operands that meet the hypotheses of each statement, clause by clause -/

theorem witness_CallPushesItsOwnAddress : State.reset.sp.toNat < 16 ∧ (withSp 15 State.reset).sp.toNat < 16 := by decide

theorem witness_RetPopsAndAddsTwo :
    (0 : Fin 16).val + 1 = (withSp 1 State.reset).sp.toNat ∧ (15 : Fin 16).val + 1 = (withSp 16 State.reset).sp.toNat := by
  decide

theorem witness_StackErrorsExactly :
    ((withSp 16 State.reset).sp.toNat ≤ 16 ∧ errorOf (exec (.call 0x300) (withSp 16 State.reset)) = some .stackOverflow) ∧
    ((withSp 0 State.reset).sp.toNat ≤ 16 ∧ errorOf (exec .ret (withSp 0 State.reset)) = some .stackUnderflow) := by decide

theorem witness_CallThenReturnComesBack : State.reset.sp.toNat < 16 ∧ (withSp 15 State.reset).sp.toNat < 16 := by decide

theorem witness_CallsNestToSixteen :
    State.reset.sp.toNat + (List.replicate 16 (0x300 : Addr12)).length = 16 ∧
    (withSp 16 State.reset).sp.toNat + ([] : List Addr12).length = 16 := by decide

theorem witness_SkipsOnImmediate :
    (readReg State.reset 3).toNat = (0x00 : Byte).toNat ∧ (readReg State.reset 3).toNat ≠ (0x01 : Byte).toNat := by decide

theorem witness_SkipsOnRegisters :
    (readReg State.reset 3).toNat = (readReg State.reset 3).toNat ∧
    (readReg (writeReg 15 0xFF State.reset) 15).toNat ≠ (readReg (writeReg 15 0xFF State.reset) 0).toNat := by decide

theorem witness_AddWritesSumAndCarry :
    (14 : RegNum) ≠ VF ∧ 255 < (0xFF : Byte).toNat + (0x01 : Byte).toNat ∧ ¬ 255 < (0xFE : Byte).toNat + (0x01 : Byte).toNat := by
  decide

theorem witness_SubtractWritesNotBorrow :
    (0 : RegNum) ≠ VF ∧ (0x05 : Byte).toNat ≤ (0x05 : Byte).toNat ∧ ¬ (0x06 : Byte).toNat ≤ (0x05 : Byte).toNat := by decide

theorem witness_ShiftsWriteTheBitShiftedOut : (0 : RegNum) ≠ VF ∧ (14 : RegNum) ≠ VF := by decide

theorem witness_FlagOnlyFromSixInstructions :
    ((∃ t, exec (.addReg 0 1) State.reset = .next t) ∧
      (Instr.addReg 0 1).tag ∈ [OpcodeTag.ADD_REG, .SUB, .SUBN, .SHR, .SHL, .DRW]) ∧
    ((∃ t, exec (.ldImm 15 7) State.reset = .next t) ∧
      (Instr.ldImm 15 7).tag ∉ [OpcodeTag.ADD_REG, .SUB, .SUBN, .SHR, .SHL, .DRW]) :=
  ⟨⟨⟨_, rfl⟩, by decide⟩, ⟨_, rfl⟩, by decide⟩

theorem witness_RandomByteUnderMask :
    fetchDecode (start id 0xC3FF) = .ok (.rnd 3 0xFF) ∧ fetchDecode (start id 0xCF00) = .ok (.rnd 15 0x00) :=
  ⟨rfl, rfl⟩

theorem witness_RandomSourceIsConsumed :
    (withSupply [0xA7, 0x01] State.reset).rndSupply = 0xA7 :: [0x01] ∧ State.reset.rndSupply = [] := by decide

theorem witness_DrawInvertsTheClippedSprite :
    AccessFits (withI 0xFFB State.reset).i.toNat (5 : Nibble).toNat ∧
    AccessFits (withI 0xFFFF State.reset).i.toNat (0 : Nibble).toNat ∧
    spriteCovers State.reset.mem 0 5 0 0 4 3 ∧ ¬ spriteCovers State.reset.mem 0 5 0 0 4 4 ∧
    ¬ spriteCovers State.reset.mem 0 5 0 0 5 0 := by decide

theorem witness_CollisionFlagExact :
    (∃ t, exec (.drw 0 1 5) State.reset = .next t ∧
      ¬ ∃ row col, pixel State.reset.fb row col = true ∧ pixel t.fb row col = false) ∧
    (∃ t, exec (.drw 0 1 5) (allOn State.reset) = .next t ∧
      ∃ row col, pixel (allOn State.reset).fb row col = true ∧ pixel t.fb row col = false) := by
  refine ⟨⟨_, rfl, ?_⟩, _, rfl, 0, 0, ?_⟩
  · rintro ⟨row, col, h, -⟩
    simp [pixel, State.reset] at h
  · decide +kernel

theorem witness_DrawTwiceRestores :
    (0 : RegNum) ≠ VF ∧ (1 : RegNum) ≠ VF ∧ ∃ t, exec (.drw 0 1 5) State.reset = .next t := ⟨by decide, by decide, _, rfl⟩

theorem witness_KeySkips :
    (10 : Nibble).toNat = (readReg (writeReg 5 0x3A State.reset) 5).toNat % 16 ∧
    keyDown (keyWrite 10 true (writeReg 5 0x3A State.reset)) 10 = true ∧
    keyDown (writeReg 5 0x3A State.reset) 10 = false := by decide

theorem witness_KeyWaitByMode :
    State.reset.keywaitMode = .unimplemented ∧
    ((withMode .wait State.reset).keywaitMode = .wait ∧ ∀ k, keyDown (withMode .wait State.reset) k = false) ∧
    (keyDown (keyWrite 15 true (withMode .wait State.reset)) 15 = true ∧
      ∀ j, keyDown (keyWrite 15 true (withMode .wait State.reset)) j = true → (15 : Nibble).toNat ≤ j.toNat) ∧
    (keyDown (keyWrite 0 true (withMode .wait State.reset)) 0 = true ∧
      ∀ j, keyDown (keyWrite 0 true (withMode .wait State.reset)) j = true → (0 : Nibble).toNat ≤ j.toNat) := by decide

theorem witness_TickCountsDownToZero :
    0 < (withDt 1 State.reset).dt.toNat ∧ State.reset.dt.toNat = 0 ∧
    0 < (setSound 0xFF State.reset).st.toNat ∧ State.reset.st.toNat = 0 := by decide

theorem witness_InstructionsNeverTick :
    (∃ t, exec (.ldVxDt 0) (withDt 3 State.reset) = .next t) ∧ (∃ t, exec (.ldStVx 0) State.reset = .next t) :=
  ⟨⟨_, rfl⟩, _, rfl⟩

theorem witness_BcdStoresThreeDigits :
    (State.reset.mem.wf = true ∧ AccessFits (withI 0xFFD State.reset).i.toNat 3) ∧
    ¬ AccessFits (withI 0xFFE State.reset).i.toNat 3 := by decide

theorem witness_BlockStoreCopiesRegisters :
    (State.reset.mem.wf = true ∧ AccessFits (withI 0xFF0 State.reset).i.toNat ((15 : RegNum).toNat + 1)) ∧
    ¬ AccessFits (withI 0xFF1 State.reset).i.toNat ((15 : RegNum).toNat + 1) := by decide

theorem witness_BlockLoadCopiesMemory :
    AccessFits (withI 0xFFF State.reset).i.toNat ((0 : RegNum).toNat + 1) ∧
    ¬ AccessFits (withI 0x1000 State.reset).i.toNat ((0 : RegNum).toNat + 1) := by decide

theorem witness_BlockStoreThenLoadRestores :
    State.reset.mem.wf = true ∧ ∃ t u, exec (.stRegs 15) (withI 0x300 State.reset) = .next t ∧ u.mem = t.mem ∧
      u.i = (withI 0x300 State.reset).i ∧ u ≠ t :=
  ⟨by decide, _, withPc 0x300 (withI 0x300 State.reset), rfl, rfl, rfl, by decide +kernel⟩

theorem witness_FetchIsBigEndian : (withPc 0xFFE State.reset).pc.toNat + 1 < 4096 := by decide

theorem witness_FetchOutOfRangeFaults :
    4096 ≤ (withPc 0x1000 State.reset).pc.toNat ∧ (withPc 0xFFF State.reset).pc.toNat = 4095 := by decide

theorem witness_DrawOutOfRangeFaults :
    ¬ AccessFits (withI 0xFFF State.reset).i.toNat (2 : Nibble).toNat ∧
    ¬ AccessFits (withI 0xFFFF State.reset).i.toNat (1 : Nibble).toNat := by decide

theorem witness_StoreSeenByNextFetch :
    State.reset.mem.wf = true ∧
    ∃ t, exec (.stRegs 15) (withI 0x1F4 State.reset) = .next t ∧ (15 : RegNum).toNat = (14 : RegNum).toNat + 1 ∧
      (15 : RegNum).toNat ≤ (15 : RegNum).toNat ∧
      t.pc.toNat = (withI 0x1F4 State.reset).i.toNat + (14 : RegNum).toNat :=
  ⟨by decide, _, rfl, by decide, by decide, rfl⟩

theorem witness_CanonicalMemoryIsExtensional :
    ∃ m m' : Memory, m.wf = true ∧ m'.wf = true ∧ ∀ a, readByte m a = readByte m' a :=
  ⟨writeByte [(0x300, 0xAA)] 0x300 0x00, [], by decide, by decide, fun _ => rfl⟩

theorem witness_OnlyTheseInstructionsFail :
    errorOf (exec (.call 0x300) (withSp 16 State.reset)) = some .stackOverflow ∧
    errorOf (exec .ret State.reset) = some .stackUnderflow ∧
    errorOf (exec (.ldVxK 0) State.reset) = some (.unimplementedOpcode .LD_VX_K) ∧
    errorOf (exec (.ldRegs 0) (withI 0x1000 State.reset)) = some (.memoryOutOfBounds 0x1000) ∧
    (withSp 16 State.reset).sp.toNat ≤ 16 := by decide +kernel

theorem witness_ReportedAddressRange :
    instrStep (withPc 0xFFF State.reset) = .fault (.memoryOutOfBounds 4096) ∧
    instrStep (withPc 0xFFFF State.reset) = .fault (.memoryOutOfBounds 65535) := ⟨rfl, rfl⟩

theorem witness_ErrorsPersist :
    instrStep (start id 0xFFFF) = .fault (.unknownOpcode 0xFFFF) ∧
    (∀ op ∈ [HostOp.tick, .keyWrite 3 true], op = .tick ∨ ∃ k b, op = .keyWrite k b) ∧
    (start id 0xFFFF).script = [] ∧ (start id 0xFFFF).driver = .stepping :=
  ⟨rfl, by simp, rfl, rfl⟩

theorem witness_DecodeOfEncode : (Instr.sys 0xFFF).wellFormed = true ∧ (Instr.seReg 15 15 15).wellFormed = true := by decide

theorem witness_EncodeOfDecode :
    decodeWord 0x9FFF = .ok (.sneReg 15 15 15) ∧ decodeWord 0x00EF = .ok (.sys 0x0EF) := by decide

theorem witness_DecodeFollowsTheTable :
    decodeWord 0x00EE = .ok .ret ∧ decodeWord 0x800F = .error (.unknownOpcode 0x800F) := by decide

theorem witness_StepRunsTheDecodedInstruction :
    State.reset.script = [] ∧ State.reset.driver = .stepping ∧
    fetch (withPc 0xFFF State.reset) = .error (.memoryOutOfBounds 0x1000) ∧
    (fetch (start id 0x8128) = .ok 0x8128 ∧ decodeWord 0x8128 = .error (.unknownOpcode 0x8128)) ∧
    (fetch (start id 0xD015) = .ok 0xD015 ∧ decodeWord 0xD015 = .ok (.drw 0 1 5)) := by decide +kernel

theorem witness_LinedUpOperationComesFirst :
    (withScript [.tick, .fbRead] State.reset).script = .tick :: [.fbRead] ∧
    fetchDecode (start id 0x00E0) = .ok .cls ∧ Instr.cls.tag ≠ .RND ∧
    (withDriver (.free 3) State.reset).script = [] ∧ (withDriver (.free 3) State.reset).driver = .free 3 :=
  ⟨rfl, rfl, by decide, rfl, rfl⟩

theorem witness_KeyWriteSetsOneFlag : (15 : Nibble) ≠ 0 := by decide

theorem witness_LoadCopiesTheImage :
    (State.reset.mem.wf = true ∧ (List.replicate 3584 (0xAA : Byte)).length ≤ 3584) ∧
    3584 < (List.replicate 3585 (0xAA : Byte)).length := by
  rw [List.length_replicate, List.length_replicate]
  decide

theorem witness_EveryInstructionKeepsItsFrame :
    (∃ t, exec (.stRegs 15) (withI 0xFF0 State.reset) = .next t) ∧ (∃ t, exec (.call 0x300) (withSp 15 State.reset) = .next t) :=
  ⟨⟨_, rfl⟩, _, rfl⟩

theorem witness_StepKeepsTheInvariant :
    ∃ s t, s.Inv ∧ step s = .next t ∧ s.sp.toNat = 15 ∧ s.mem ≠ [] :=
  ⟨start (withSp 15) 0x2FFF, _,
    ⟨by decide, by decide, by decide +kernel, by decide⟩, rfl, by decide, by decide⟩

theorem witness_SoundTimerIsUnobservable :
    (∃ t, core.run 2 (start id 0xF018) = .next t) ∧
    core.run 1 (start id 0x8128) = .fault (.unknownOpcode 0x8128) ∧
    core.run 1 (start (withSp 17) 0x00EE) = .refused .stackPointerOutOfRange := ⟨⟨_, rfl⟩, rfl, rfl⟩

theorem witness_ParkedProgramStays : Parked (start id 0x1200) ∧ (start id 0x1200).script = [] ∧
    (start id 0x1200).driver = .stepping :=
  ⟨⟨0x200, rfl, by decide⟩, rfl, rfl⟩

end Sys2Proof.Tests
end

/-!
PROOFS. The family 10_state.md: the tick source (R36) and the input poller (R37), each an operation on the whole state.
-/
namespace Sys2Proof.Machine

/-! ### What TICK and KEYWRITE do -/

@[simp] theorem perform_tick (s : State) : perform .tick s = .next (tick s) := rfl

@[simp] theorem perform_keyWrite (k : Nibble) (b : Bool) (s : State) :
    perform (.keyWrite k b) s = .next (keyWrite k b s) := rfl

/-- TICK is two timer writes, so the frame rules of `setDelay` and `setSound` speak of it. -/
theorem tick_eq_setSound_setDelay (s : State) :
    tick s = setSound (countDown s.st) (setDelay (countDown s.dt) s) := rfl

theorem Frame.tick {f : Footprint} {s t : State} (h : Frame f s t) (hd : f.delay = true) (hs : f.sound = true) :
    Frame f s (tick t) := by
  rw [tick_eq_setSound_setDelay]
  exact (h.setDelay hd _).setSound hs _

@[simp] theorem keyDown_keyWrite_self (k : Nibble) (b : Bool) (s : State) : keyDown (keyWrite k b s) k = b := by
  simp [keyDown, keyWrite]

theorem keyDown_keyWrite_of_ne {j k : Nibble} (h : j ≠ k) (b : Bool) (s : State) :
    keyDown (keyWrite k b s) j = keyDown s j := by
  have hne : k.toNat ≠ j.toNat := fun e => h (BitVec.eq_of_toNat_eq e.symm)
  simp [keyDown, keyWrite, Vector.getElem_set_ne _ _ hne]

/-- With the key flags put back, nothing of a KEYWRITE is left. -/
theorem keyWrite_with_key (k : Nibble) (b : Bool) (s : State) : { keyWrite k b s with key := s.key } = s := rfl

/-! ### The statements of the family -/

/-- Settles O30: the state after TICK is `tick s`, where each timer is one lower in truncated subtraction. -/
theorem tickCountsDownToZero : Obligations.TickCountsDownToZero := by
  intro s
  have hdt : (tick s).dt.toNat = s.dt.toNat - 1 := countDown_toNat s.dt
  have hst : (tick s).st.toNat = s.st.toNat - 1 := countDown_toNat s.st
  refine ⟨tick s, perform_tick s, ?_, ?_, ?_, ?_, tick_pc s, (Frame.refl _ s).tick rfl rfl⟩ <;> omega

/-- Settles O52: the state after KEYWRITE is `keyWrite k b s`, which is `s` again once the key flags are put back. -/
theorem keyWriteSetsOneFlag : Obligations.KeyWriteSetsOneFlag := by
  intro k b s
  refine ⟨keyWrite k b s, perform_keyWrite k b s, keyDown_keyWrite_self k b s,
    fun _ hj => keyDown_keyWrite_of_ne hj b s, keyWrite_pc k b s, ?_⟩
  rw [keyWrite_with_key]
  exact Frame.refl _ s

end Sys2Proof.Machine

/-!
PROOFS. The family 20_memory.md: the byte order of the fetch (R53).
-/
namespace Sys2Proof.Machine

/-- Settles O37: in range, the fetch puts together the bytes at pc and pc + 1, and `wordOfBytes_toNat` gives the value of
the word they form. -/
theorem fetchIsBigEndian : Obligations.FetchIsBigEndian := by
  intro s hpc
  exact ⟨_, fetch_of_fits hpc, wordOfBytes_toNat _ _⟩

end Sys2Proof.Machine

/-!
PROOFS. The family 40_control_transfer.md: the jump (R100) and the system call that does nothing (R104). Each arm answers
a next state for every operand, and only pc, which stands outside every frame, is written.
-/
namespace Sys2Proof.Machine

@[simp] theorem exec_jp (nnn : Addr12) (s : State) : exec (.jp nnn) s = .next (setPc (addrOf nnn) s) := rfl

@[simp] theorem exec_sys (nnn : Addr12) (s : State) : exec (.sys nnn) s = .next (advance s) := rfl

/-- Settles O1: JP is one write of pc, and widening nnn to 16 bits keeps its value. -/
theorem jumpSetsPcOnly : Obligations.JumpSetsPcOnly := by
  intro nnn s
  have hpc : (setPc (addrOf nnn) s).pc.toNat = nnn.toNat := addrOf_toNat nnn
  exact ⟨setPc (addrOf nnn) s, exec_jp nnn s, hpc, (Frame.refl _ s).setPc _⟩

/-- Settles O2: SYS is `advance`, whatever its operand. -/
theorem sysOnlyAdvancesPc : Obligations.SysOnlyAdvancesPc := by
  intro nnn s
  exact ⟨advance s, exec_sys nnn s, pcPlus_advance s s rfl, (Frame.refl _ s).advance⟩

end Sys2Proof.Machine

/-!
PROOFS. The family 41_skip.md: SE and SNE with an immediate (R110, R111) and with two registers (R112, R113). All four are
`skipIf` on a comparison of two bytes, so the statements come down to what `skipIf` does on `==` and on `!=`.
-/
namespace Sys2Proof.Machine

/-! ### The four skips are `skipIf` -/

@[simp] theorem exec_seImm (x : RegNum) (nn : Byte) (s : State) :
    exec (.seImm x nn) s = .next (skipIf (readReg s x == nn) s) := rfl

@[simp] theorem exec_sneImm (x : RegNum) (nn : Byte) (s : State) :
    exec (.sneImm x nn) s = .next (skipIf (readReg s x != nn) s) := rfl

@[simp] theorem exec_seReg (x y : RegNum) (z : Nibble) (s : State) :
    exec (.seReg x y z) s = .next (skipIf (readReg s x == readReg s y) s) := rfl

@[simp] theorem exec_sneReg (x y : RegNum) (z : Nibble) (s : State) :
    exec (.sneReg x y z) s = .next (skipIf (readReg s x != readReg s y) s) := rfl

/-! ### Where a skip leads -/

theorem pcPlus_skipIf_of_true {c : Bool} (h : c = true) (s : State) : PcPlus 4 s (skipIf c s) :=
  h ▸ pcPlus_skipIf_true s

theorem pcPlus_skipIf_of_false {c : Bool} (h : c = false) (s : State) : PcPlus 2 s (skipIf c s) :=
  h ▸ pcPlus_skipIf_false s

theorem skipIf_beq (a b : Byte) (s : State) :
    Frame {} s (skipIf (a == b) s) ∧
      (a.toNat = b.toNat → PcPlus 4 s (skipIf (a == b) s)) ∧ (a.toNat ≠ b.toNat → PcPlus 2 s (skipIf (a == b) s)) := by
  refine ⟨(Frame.refl _ s).skipIf _, fun h => ?_, fun h => ?_⟩
  · exact pcPlus_skipIf_of_true (beq_iff_eq.mpr (BitVec.eq_of_toNat_eq h)) s
  · exact pcPlus_skipIf_of_false (beq_eq_false_iff_ne.mpr (BitVec.toNat_ne_iff_ne.mp h)) s

theorem skipIf_bne (a b : Byte) (s : State) :
    Frame {} s (skipIf (a != b) s) ∧
      (a.toNat ≠ b.toNat → PcPlus 4 s (skipIf (a != b) s)) ∧ (a.toNat = b.toNat → PcPlus 2 s (skipIf (a != b) s)) := by
  refine ⟨(Frame.refl _ s).skipIf _, fun h => ?_, fun h => ?_⟩
  · exact pcPlus_skipIf_of_true (bne_iff_ne.mpr (BitVec.toNat_ne_iff_ne.mp h)) s
  · exact pcPlus_skipIf_of_false (bne_eq_false_iff_eq.mpr (BitVec.eq_of_toNat_eq h)) s

/-! ### The statements of the family -/

/-- Settles O9: the two bytes compared are Vx and the immediate. -/
theorem skipsOnImmediate : Obligations.SkipsOnImmediate := by
  intro x nn s
  exact ⟨⟨_, exec_seImm x nn s, skipIf_beq _ _ s⟩, ⟨_, exec_sneImm x nn s, skipIf_bne _ _ s⟩⟩

/-- Settles O10: the two bytes compared are Vx and Vy; the low nibble reaches no meaning. -/
theorem skipsOnRegisters : Obligations.SkipsOnRegisters := by
  intro x y z s
  exact ⟨⟨_, exec_seReg x y z s, skipIf_beq _ _ s⟩, ⟨_, exec_sneReg x y z s, skipIf_bne _ _ s⟩⟩

end Sys2Proof.Machine

/-!
PROOFS. The family 42_immediate.md: load and add with an immediate (R115, R116). Both write one register and advance, for
every x: VF is written only as the destination, since no flag write follows.
-/
namespace Sys2Proof.Machine

@[simp] theorem exec_ldImm (x : RegNum) (nn : Byte) (s : State) :
    exec (.ldImm x nn) s = .next (advance (writeReg x nn s)) := rfl

@[simp] theorem exec_addImm (x : RegNum) (nn : Byte) (s : State) :
    exec (.addImm x nn) s = .next (advance (writeReg x (readReg s x + nn) s)) := rfl

theorem readReg_advance_writeReg_self (x : RegNum) (b : Byte) (s : State) :
    readReg (advance (writeReg x b s)) x = b := by
  rw [readReg_advance, readReg_writeReg_self]

/-- One register write and an advance: pc is 2 further, and only the written register is outside the frame. -/
theorem pcPlus_and_frame_advance_writeReg (x : RegNum) (b : Byte) (s : State) :
    PcPlus 2 s (advance (writeReg x b s)) ∧ Frame { regs := [x] } s (advance (writeReg x b s)) :=
  ⟨pcPlus_advance s _ (writeReg_pc x b s), ((Frame.refl _ s).writeReg List.mem_cons_self b).advance⟩

/-! ### The statements of the family -/

/-- Settles O11: the byte written to Vx is the immediate. -/
theorem immediateLoadReplaces : Obligations.ImmediateLoadReplaces := by
  intro x nn s
  exact ⟨_, exec_ldImm x nn s, readReg_advance_writeReg_self x nn s, pcPlus_and_frame_advance_writeReg x nn s⟩

/-- Settles O12: the byte written to Vx is the 8-bit sum, so its value is the sum modulo 256. -/
theorem immediateAddWraps : Obligations.ImmediateAddWraps := by
  intro x nn s
  refine ⟨_, exec_addImm x nn s, ?_, pcPlus_and_frame_advance_writeReg x _ s⟩
  rw [readReg_advance_writeReg_self]
  exact BitVec.toNat_add _ _

end Sys2Proof.Machine

/-!
PROOFS. The family 43_alu.md: the register copy (R121). It is one register write and an advance, as the immediate loads
are; no case for x = y or for VF is needed.
-/
namespace Sys2Proof.Machine

@[simp] theorem exec_ldReg (x y : RegNum) (s : State) :
    exec (.ldReg x y) s = .next (advance (writeReg x (readReg s y) s)) := rfl

/-- Settles O13: the byte written to Vx is Vy as it was read before the write. -/
theorem registerCopy : Obligations.RegisterCopy := by
  intro x y s
  exact ⟨_, exec_ldReg x y s, readReg_advance_writeReg_self x _ s, pcPlus_and_frame_advance_writeReg x _ s⟩

end Sys2Proof.Machine

/-!
PROOFS. The family 44_index.md: the load of the index register (R135). It is one write of I and an advance.
-/
namespace Sys2Proof.Machine

@[simp] theorem exec_ldI (nnn : Addr12) (s : State) :
    exec (.ldI nnn) s = .next (advance (setIndex (addrOf nnn) s)) := rfl

theorem index_advance_setIndex (a : Word) (s : State) : (advance (setIndex a s)).i = a := by
  rw [advance_i, setIndex_i]

/-- One write of I and an advance: pc is 2 further, and only I is outside the frame. -/
theorem pcPlus_and_frame_advance_setIndex (a : Word) (s : State) :
    PcPlus 2 s (advance (setIndex a s)) ∧ Frame { index := true } s (advance (setIndex a s)) :=
  ⟨pcPlus_advance s _ (setIndex_pc a s), ((Frame.refl _ s).setIndex rfl a).advance⟩

/-- Settles O19: the word written to I is nnn widened to 16 bits, which keeps its value. -/
theorem indexLoad : Obligations.IndexLoad := by
  intro nnn s
  refine ⟨_, exec_ldI nnn s, ?_, pcPlus_and_frame_advance_setIndex _ s⟩
  rw [index_advance_setIndex]
  exact addrOf_toNat nnn

end Sys2Proof.Machine

/-!
PROOFS. The family 45_random.md: RND on a STEP with the driver's own byte (R140). The byte goes in at the head of the
random source, RND takes it from there, and the source is put back; what is left is one register write and an advance.
-/
namespace Sys2Proof.Machine

@[simp] theorem exec_rnd (x : RegNum) (nn : Byte) (s : State) :
    exec (.rnd x nn) s = .next (advance (writeReg x (nextRandom s &&& nn) (consumeRandom s))) := rfl

/-- A STEP(rnd) is the execution of the fetched instruction with rnd at the head of the random source, which is put back
after it: the fetch does not read the source. -/
theorem instrStepWith_of_next {rnd : Byte} {s t : State} {i : Instr} (h : fetchDecode s = .ok i)
    (he : exec i { s with rndSupply := rnd :: s.rndSupply } = .next t) :
    instrStepWith rnd s = .next { t with rndSupply := s.rndSupply } := by
  have hfetch : fetchDecode { s with rndSupply := rnd :: s.rndSupply } = .ok i :=
    (fetchDecode_congr rfl rfl).trans h
  rw [instrStepWith, instrStep_of_ok hfetch, he]

/-- RND at a STEP(rnd) writes rnd under the mask: the byte it takes is the one put in, so the source is as it was. -/
theorem instrStepWith_rnd {x : RegNum} {nn : Byte} {s : State} (rnd : Byte) (h : fetchDecode s = .ok (.rnd x nn)) :
    instrStepWith rnd s = .next (advance (writeReg x (rnd &&& nn) s)) :=
  instrStepWith_of_next h (exec_rnd x nn _)

/-! ### The statements of the family -/

/-- Settles O21: the byte written to Vx is rnd &&& nn, which is the conjunction bit by bit. -/
theorem randomByteUnderMask : Obligations.RandomByteUnderMask := by
  intro x nn rnd s h
  refine ⟨_, instrStepWith_rnd rnd h, fun k => ?_, pcPlus_and_frame_advance_writeReg x _ s⟩
  rw [readReg_advance_writeReg_self]
  exact BitVec.getLsbD_and

end Sys2Proof.Machine

/-!
PROOFS. The family 46_draw_and_clear.md: the clear of the screen (R146). It is one write of the framebuffer and an advance;
the framebuffer written is blank, so every pixel read from it is off.
-/
namespace Sys2Proof.Machine

@[simp] theorem exec_cls (s : State) :
    exec .cls s = .next (advance (setScreen (Vector.replicate 32 (Vector.replicate 64 false)) s)) := rfl

/-- Every pixel of a framebuffer filled with one value has that value. -/
@[simp] theorem pixel_replicate (b : Bool) (row : Fin 32) (col : Fin 64) :
    pixel (Vector.replicate 32 (Vector.replicate 64 b)) row col = b := by
  rw [pixel, Vector.getElem_replicate, Vector.getElem_replicate]

/-- One write of the framebuffer and an advance: pc is 2 further, and only the screen is outside the frame. -/
theorem pcPlus_and_frame_advance_setScreen (fb : Framebuffer) (s : State) :
    PcPlus 2 s (advance (setScreen fb s)) ∧ Frame { screen := true } s (advance (setScreen fb s)) :=
  ⟨pcPlus_advance s _ (setScreen_pc fb s), ((Frame.refl _ s).setScreen rfl fb).advance⟩

/-- Settles O23: the screen written is the blank one, and the write reaches neither the registers nor pc. -/
theorem clearTurnsEveryPixelOff : Obligations.ClearTurnsEveryPixelOff := by
  intro s
  refine ⟨_, exec_cls s, fun row col => ?_, pcPlus_and_frame_advance_setScreen _ s⟩
  rw [advance_fb, setScreen_fb]
  exact pixel_replicate false row col

end Sys2Proof.Machine

/-!
PROOFS. The family 47_keypad.md: SKP and SKNP (R155, R156). Both are `skipIf` on the flag of the key that the low nibble of
Vx names, SKP on the flag itself and SKNP on its complement.
-/
namespace Sys2Proof.Machine

@[simp] theorem exec_skp (x : RegNum) (s : State) :
    exec (.skp x) s = .next (skipIf (keyDown s (lowNibble (readReg s x))) s) := rfl

@[simp] theorem exec_sknp (x : RegNum) (s : State) :
    exec (.sknp x) s = .next (skipIf (!keyDown s (lowNibble (readReg s x))) s) := rfl

/-- A nibble whose number is the byte modulo 16 is the byte's low nibble. -/
theorem eq_lowNibble_of_toNat {k : Nibble} {b : Byte} (h : k.toNat = b.toNat % 16) : k = lowNibble b :=
  BitVec.eq_of_toNat_eq (h.trans (lowNibble_toNat b).symm)

theorem skipIf_flag (c : Bool) (s : State) :
    Frame {} s (skipIf c s) ∧ (c = true → PcPlus 4 s (skipIf c s)) ∧ (c = false → PcPlus 2 s (skipIf c s)) :=
  ⟨(Frame.refl _ s).skipIf c, fun h => pcPlus_skipIf_of_true h s, fun h => pcPlus_skipIf_of_false h s⟩

theorem skipIf_not_flag (c : Bool) (s : State) :
    Frame {} s (skipIf (!c) s) ∧
      (c = false → PcPlus 4 s (skipIf (!c) s)) ∧ (c = true → PcPlus 2 s (skipIf (!c) s)) := by
  simpa only [Bool.not_eq_true', Bool.not_eq_false'] using skipIf_flag (!c) s

/-- Settles O27: the key tested is the low nibble of Vx, the only nibble with the number V[x] mod 16. -/
theorem keySkips : Obligations.KeySkips := by
  intro x k s hk
  obtain rfl : k = lowNibble (readReg s x) := eq_lowNibble_of_toNat hk
  exact ⟨⟨_, exec_skp x s, skipIf_flag _ s⟩, ⟨_, exec_sknp x s, skipIf_not_flag _ s⟩⟩

end Sys2Proof.Machine

/-!
PROOFS. The family 48_timers.md: the three timer copies (R160, R161, R162). Each is one write and an advance: of a register
for LD Vx, DT, of DT for LD DT, Vx, and of ST for LD ST, Vx.
-/
namespace Sys2Proof.Machine

@[simp] theorem exec_ldVxDt (x : RegNum) (s : State) :
    exec (.ldVxDt x) s = .next (advance (writeReg x s.dt s)) := rfl

@[simp] theorem exec_ldDtVx (x : RegNum) (s : State) :
    exec (.ldDtVx x) s = .next (advance (setDelay (readReg s x) s)) := rfl

@[simp] theorem exec_ldStVx (x : RegNum) (s : State) :
    exec (.ldStVx x) s = .next (advance (setSound (readReg s x) s)) := rfl

theorem dt_advance_setDelay (b : Byte) (s : State) : (advance (setDelay b s)).dt = b := by
  rw [advance_dt, setDelay_dt]

theorem st_advance_setSound (b : Byte) (s : State) : (advance (setSound b s)).st = b := by
  rw [advance_st, setSound_st]

/-- One write of DT and an advance: pc is 2 further, and only DT is outside the frame. -/
theorem pcPlus_and_frame_advance_setDelay (b : Byte) (s : State) :
    PcPlus 2 s (advance (setDelay b s)) ∧ Frame { delay := true } s (advance (setDelay b s)) :=
  ⟨pcPlus_advance s _ (setDelay_pc b s), ((Frame.refl _ s).setDelay rfl b).advance⟩

/-- One write of ST and an advance: pc is 2 further, and only ST is outside the frame. -/
theorem pcPlus_and_frame_advance_setSound (b : Byte) (s : State) :
    PcPlus 2 s (advance (setSound b s)) ∧ Frame { sound := true } s (advance (setSound b s)) :=
  ⟨pcPlus_advance s _ (setSound_pc b s), ((Frame.refl _ s).setSound rfl b).advance⟩

/-- Settles O29: each copy writes the byte its source held before the step, and the advance leaves it in place. -/
theorem timerCopies : Obligations.TimerCopies := by
  intro x s
  refine ⟨⟨_, exec_ldVxDt x s, ?_⟩, ⟨_, exec_ldDtVx x s, ?_⟩, ⟨_, exec_ldStVx x s, ?_⟩⟩
  · exact ⟨readReg_advance_writeReg_self x s.dt s, pcPlus_and_frame_advance_writeReg x s.dt s⟩
  · exact ⟨dt_advance_setDelay _ s, pcPlus_and_frame_advance_setDelay _ s⟩
  · exact ⟨st_advance_setSound _ s, pcPlus_and_frame_advance_setSound _ s⟩

end Sys2Proof.Machine

/-!
PROOFS. Decode and encode (30_encoding.md): the two directions between words and well-formed instructions (R76, R88), the
illegal words (R90) and the rows of the opcode table. The idea throughout: a word is put together from its fields, so a row
of the table is decided by the family and, in families 8, E and F, by the low nibble or byte.
-/
namespace Sys2Proof

/-! ### Decoding what was encoded -/

theorem decodeWord?_of_op_zero {w : Word} (h : opField w = 0) : decodeWord? w = some (decodeFamily0 w) := by
  rw [decodeWord?, h]
  rfl

theorem decodeFamily0_eq_sys {w : Word} (hcls : nnnField w ≠ 0x0E0) (hret : nnnField w ≠ 0x0EE) :
    decodeFamily0 w = .sys (nnnField w) := by
  rw [decodeFamily0, if_neg hcls, if_neg hret]

/-- Decode and encode agree: the fields of an encoded word are the operands. -/
theorem decodeWord?_encode {i : Instr} (h : i.wellFormed = true) : decodeWord? (encode i) = some i := by
  cases i with
  | cls => rfl
  | ret => rfl
  | sys nnn =>
    simp only [Instr.wellFormed, Bool.and_eq_true, bne_iff_ne] at h
    obtain ⟨hcls, hret⟩ := h
    have hnnn : nnnField (formatNNN 0 nnn) = nnn := nnnField_formatNNN 0 nnn
    rw [encode, decodeWord?_of_op_zero (opField_formatNNN _ _), decodeFamily0_eq_sys (by rwa [hnnn]) (by rwa [hnnn]), hnnn]
  | ldReg x y | orReg x y | andReg x y | xorReg x y | addReg x y | sub x y | shr x y | subn x y | shl x y =>
    simp [encode, decodeWord?, decodeFamily8]
  | skp x | sknp x => simp [encode, decodeWord?, decodeFamilyE]
  | ldVxDt x | ldVxK x | ldDtVx x | ldStVx x | addI x | ldF x | ldB x | stRegs x | ldRegs x =>
    simp [encode, decodeWord?, decodeFamilyF]
  | _ => simp [encode, decodeWord?]

/-- Decoding bytes decodes the word of the first two and hands back the others. -/
theorem decode_bytesOfWord {w : Word} {i : Instr} (h : decodeWord w = .ok i) (rest : List Byte) :
    decode (bytesOfWord w ++ rest) = .ok (i, rest) := by
  simp only [bytesOfWord, List.cons_append, List.nil_append, decode, wordOfBytes_bytesOfWord, h]

/-- Settles O45: the fields of the encoded word are the operands, and its two bytes make the word again. -/
theorem decodeOfEncode : Obligations.DecodeOfEncode := by
  intro i hi
  have hw : decodeWord (encode i) = .ok i := (decodeWord_ok_iff _ i).2 (decodeWord?_encode hi)
  exact ⟨hw, decode_bytesOfWord hw⟩

/-! ### Encoding what was decoded -/

theorem formatNNN_of_op {w : Word} {op : Nibble} (h : opField w = op) : formatNNN op (nnnField w) = w :=
  h ▸ formatNNN_fields w

theorem formatXNN_of_op {w : Word} {op : Nibble} (h : opField w = op) : formatXNN op (xField w) (nnField w) = w :=
  h ▸ formatXNN_fields w

theorem formatXYN_of_op {w : Word} {op : Nibble} (h : opField w = op) :
    formatXYN op (xField w) (yField w) (nField w) = w :=
  h ▸ formatXYN_fields w

theorem formatXNN_of_op_nn {w : Word} {op : Nibble} {nn : Byte} (h : opField w = op) (hnn : nnField w = nn) :
    formatXNN op (xField w) nn = w :=
  hnn ▸ formatXNN_of_op h

theorem formatXYN_of_op_n {w : Word} {op n : Nibble} (h : opField w = op) (hn : nField w = n) :
    formatXYN op (xField w) (yField w) n = w :=
  hn ▸ formatXYN_of_op h

theorem encode_decodeFamily0 {w : Word} (h : opField w = 0) :
    (decodeFamily0 w).wellFormed = true ∧ encode (decodeFamily0 w) = w := by
  have hw : formatNNN 0 (nnnField w) = w := formatNNN_of_op h
  unfold decodeFamily0
  split
  · next hcls => rw [hcls] at hw; exact ⟨rfl, hw⟩
  · next hcls =>
    split
    · next hret => rw [hret] at hw; exact ⟨rfl, hw⟩
    · next hret =>
      have hwf : (Instr.sys (nnnField w)).wellFormed = true :=
        Bool.and_eq_true_iff.2 ⟨bne_iff_ne.2 hcls, bne_iff_ne.2 hret⟩
      exact ⟨hwf, hw⟩

theorem encode_of_decodeFamily8 {w : Word} {i : Instr} (h : opField w = 8) (hi : decodeFamily8 w = some i) :
    i.wellFormed = true ∧ encode i = w := by
  unfold decodeFamily8 at hi
  split at hi <;> cases hi <;> next hn => exact ⟨rfl, formatXYN_of_op_n h hn⟩

theorem encode_of_decodeFamilyE {w : Word} {i : Instr} (h : opField w = 0xE) (hi : decodeFamilyE w = some i) :
    i.wellFormed = true ∧ encode i = w := by
  unfold decodeFamilyE at hi
  split at hi <;> cases hi <;> next hnn => exact ⟨rfl, formatXNN_of_op_nn h hnn⟩

theorem encode_of_decodeFamilyF {w : Word} {i : Instr} (h : opField w = 0xF) (hi : decodeFamilyF w = some i) :
    i.wellFormed = true ∧ encode i = w := by
  unfold decodeFamilyF at hi
  split at hi <;> cases hi <;> next hnn => exact ⟨rfl, formatXNN_of_op_nn h hnn⟩

/-- A nibble that is none of 0 to 14 is 15: the last arm of the decoder is family F. -/
theorem nibble_eq_fifteen (n : Nibble) (h : ∀ k : Fin 15, n ≠ BitVec.ofNat 4 k) : n = 0xF := by
  revert n; decide

theorem encode_of_decodeWord? {w : Word} {i : Instr} (h : decodeWord? w = some i) :
    i.wellFormed = true ∧ encode i = w := by
  unfold decodeWord? at h
  split at h
  · next hop => cases h; exact encode_decodeFamily0 hop
  · next hop => cases h; exact ⟨rfl, formatNNN_of_op hop⟩
  · next hop => cases h; exact ⟨rfl, formatNNN_of_op hop⟩
  · next hop => cases h; exact ⟨rfl, formatXNN_of_op hop⟩
  · next hop => cases h; exact ⟨rfl, formatXNN_of_op hop⟩
  · next hop => cases h; exact ⟨rfl, formatXYN_of_op hop⟩
  · next hop => cases h; exact ⟨rfl, formatXNN_of_op hop⟩
  · next hop => cases h; exact ⟨rfl, formatXNN_of_op hop⟩
  · next hop => exact encode_of_decodeFamily8 hop h
  · next hop => cases h; exact ⟨rfl, formatXYN_of_op hop⟩
  · next hop => cases h; exact ⟨rfl, formatNNN_of_op hop⟩
  · next hop => cases h; exact ⟨rfl, formatNNN_of_op hop⟩
  · next hop => cases h; exact ⟨rfl, formatXNN_of_op hop⟩
  · next hop => cases h; exact ⟨rfl, formatXYN_of_op hop⟩
  · next hop => exact encode_of_decodeFamilyE hop h
  · refine encode_of_decodeFamilyF (nibble_eq_fifteen _ fun k => ?_) h
    fin_cases k <;> assumption

/-- Settles O46: each family puts back the fields it took, and together they are the whole word. -/
theorem encodeOfDecode : Obligations.EncodeOfDecode := by
  intro w i h
  exact encode_of_decodeWord? ((decodeWord_ok_iff w i).1 h)

/-! ### The illegal words -/

theorem decodeWord_error_iff (w : Word) (e : DecodeError) :
    decodeWord w = .error e ↔ decodeWord? w = none ∧ e = .unknownOpcode w := by
  unfold decodeWord
  cases decodeWord? w with
  | some i => simp
  | none => simp [eq_comm]

/-- Only families 8, E and F reject, each by its own low nibble or byte. -/
theorem decodeWord?_eq_none_iff (w : Word) :
    decodeWord? w = none ↔
      (opField w = 0x8 ∧ decodeFamily8 w = none) ∨ (opField w = 0xE ∧ decodeFamilyE w = none) ∨
        (opField w = 0xF ∧ decodeFamilyF w = none) := by
  unfold decodeWord?
  split
  case h_16 =>
    have hop : opField w = 0xF := nibble_eq_fifteen _ fun k => by fin_cases k <;> assumption
    simp [hop]
  all_goals next hop => simp [hop]

theorem opField_eq_iff {w : Word} {op : Nibble} : opField w = op ↔ w.toNat / 4096 = op.toNat := by
  rw [← opField_toNat, BitVec.toNat_inj]

/-- Settles O47: the three families that reject, with the low nibbles and bytes that each of them leaves out. -/
theorem illegalWordsExactly : Obligations.IllegalWordsExactly := by
  intro w
  rw [decodeWord_error_iff, and_iff_left rfl, decodeWord?_eq_none_iff, decodeFamily8_eq_none, decodeFamilyE_eq_none,
    decodeFamilyF_eq_none, nField_toNat, nnField_toNat, opField_eq_iff, opField_eq_iff, opField_eq_iff]
  exact Iff.rfl

/-! ### The rows of the opcode table -/

/-- The word of a well-formed instruction meets that instruction's own row. -/
theorem selects_tag_encode : ∀ i : Instr, i.wellFormed = true → i.tag.selects (encode i) = true
  | .cls => Laws.EncodesInRow.cls
  | .ret => Laws.EncodesInRow.ret
  | .sys nnn => Laws.EncodesInRow.sys nnn
  | .jp nnn => Laws.EncodesInRow.jp nnn
  | .call nnn => Laws.EncodesInRow.call nnn
  | .seImm x nn => Laws.EncodesInRow.seImm x nn
  | .sneImm x nn => Laws.EncodesInRow.sneImm x nn
  | .seReg x y z => Laws.EncodesInRow.seReg x y z
  | .ldImm x nn => Laws.EncodesInRow.ldImm x nn
  | .addImm x nn => Laws.EncodesInRow.addImm x nn
  | .ldReg x y => Laws.EncodesInRow.ldReg x y
  | .orReg x y => Laws.EncodesInRow.orReg x y
  | .andReg x y => Laws.EncodesInRow.andReg x y
  | .xorReg x y => Laws.EncodesInRow.xorReg x y
  | .addReg x y => Laws.EncodesInRow.addReg x y
  | .sub x y => Laws.EncodesInRow.sub x y
  | .shr x y => Laws.EncodesInRow.shr x y
  | .subn x y => Laws.EncodesInRow.subn x y
  | .shl x y => Laws.EncodesInRow.shl x y
  | .sneReg x y z => Laws.EncodesInRow.sneReg x y z
  | .ldI nnn => Laws.EncodesInRow.ldI nnn
  | .jpV0 nnn => Laws.EncodesInRow.jpV0 nnn
  | .rnd x nn => Laws.EncodesInRow.rnd x nn
  | .drw x y n => Laws.EncodesInRow.drw x y n
  | .skp x => Laws.EncodesInRow.skp x
  | .sknp x => Laws.EncodesInRow.sknp x
  | .ldVxDt x => Laws.EncodesInRow.ldVxDt x
  | .ldVxK x => Laws.EncodesInRow.ldVxK x
  | .ldDtVx x => Laws.EncodesInRow.ldDtVx x
  | .ldStVx x => Laws.EncodesInRow.ldStVx x
  | .addI x => Laws.EncodesInRow.addI x
  | .ldF x => Laws.EncodesInRow.ldF x
  | .ldB x => Laws.EncodesInRow.ldB x
  | .stRegs x => Laws.EncodesInRow.stRegs x
  | .ldRegs x => Laws.EncodesInRow.ldRegs x

/-- SYS is the one row with a side condition: its words are those of family 0 but CLS and RET. -/
theorem decodeWord?_of_selects_sys {w : Word} (h : OpcodeTag.SYS.selects w = true) :
    decodeWord? w = some (.sys (nnnField w)) := by
  obtain ⟨hmask, hcls, hret⟩ : w &&& 0xF000 = 0x0000 ∧ w ≠ 0x00E0 ∧ w ≠ 0x00EE := by
    simpa [OpcodeTag.selects, OpcodeTag.maskMatch] using h
  have hop : opField w = 0 := Laws.fields_of_mask_op hmask
  have hw : formatNNN 0 (nnnField w) = w := formatNNN_of_op hop
  have hne : ∀ nnn : Addr12, w ≠ formatNNN 0 nnn → nnnField w ≠ nnn := fun nnn hn e => hn (by rw [← e, hw])
  rw [decodeWord?_of_op_zero hop, decodeFamily0_eq_sys (hne _ hcls) (hne _ hret)]

/-- A word that meets a row decodes to an instruction of that row. -/
theorem exists_decode_of_selects {tag : OpcodeTag} {w : Word} (h : tag.selects w = true) :
    ∃ i, decodeWord? w = some i ∧ i.tag = tag := by
  have hmask : w &&& tag.maskMatch.1 = tag.maskMatch.2 := by
    simp only [OpcodeTag.selects, Bool.and_eq_true, beq_iff_eq] at h
    exact h.1
  cases tag with
  | CLS | RET =>
    obtain rfl : w = _ := (BitVec.and_allOnes (x := w)).symm.trans hmask
    exact ⟨_, rfl, rfl⟩
  | SYS => exact ⟨_, decodeWord?_of_selects_sys h, rfl⟩
  | LD_REG | OR | AND | XOR | ADD_REG | SUB | SHR | SUBN | SHL =>
    obtain ⟨hop, hn⟩ := Laws.fields_of_mask_low_nibble hmask
    exact ⟨_, by rw [decodeWord?, hop]; exact (by rw [decodeFamily8, hn]; rfl), rfl⟩
  | SKP | SKNP =>
    obtain ⟨hop, hnn⟩ := Laws.fields_of_mask_low_byte hmask
    exact ⟨_, by rw [decodeWord?, hop]; exact (by rw [decodeFamilyE, hnn]; rfl), rfl⟩
  | LD_VX_DT | LD_VX_K | LD_DT_VX | LD_ST_VX | ADD_I | LD_F | LD_B | ST_REGS | LD_REGS =>
    obtain ⟨hop, hnn⟩ := Laws.fields_of_mask_low_byte hmask
    exact ⟨_, by rw [decodeWord?, hop]; exact (by rw [decodeFamilyF, hnn]; rfl), rfl⟩
  | _ =>
    have hop := Laws.fields_of_mask_op hmask
    exact ⟨_, by rw [decodeWord?, hop]; rfl, rfl⟩

/-- Settles O48: a decoded word is the encoding of its instruction, so it meets that row, and it meets no other, since a
word that meets a row decodes to an instruction of it. -/
theorem decodeFollowsTheTable : Obligations.DecodeFollowsTheTable := by
  intro w
  refine ⟨fun i hi tag => ?_, fun e he tag => ?_⟩
  · rw [decodeWord_ok_iff] at hi
    obtain ⟨hwf, rfl⟩ := encode_of_decodeWord? hi
    constructor
    · intro hsel
      obtain ⟨j, hj, rfl⟩ := exists_decode_of_selects hsel
      rw [Option.some.inj (hj.symm.trans hi)]
    · rintro rfl
      exact selects_tag_encode i hwf
  · rw [Bool.eq_false_iff]
    intro hsel
    obtain ⟨j, hj, -⟩ := exists_decode_of_selects hsel
    rw [((decodeWord_error_iff w e).1 he).1] at hj
    cases hj

/-- Settles O49: fourteen closed words, decoded one by one. -/
theorem sampleWordsDecode : Obligations.SampleWordsDecode := by
  unfold Obligations.SampleWordsDecode
  decide

end Sys2Proof

/-!
PROOFS. Control transfer (40_control_transfer.md): JP V0 (R103), CALL (R101) and RET (R102), and what they do one after
another (95_test_vectors.md S2, S7).
-/
namespace Sys2Proof.Machine

@[simp] theorem exec_jpV0 (nnn : Addr12) (s : State) :
    exec (.jpV0 nnn) s = .next (setPc (addrOf nnn + wordOf (readReg s 0)) s) := rfl

@[simp] theorem exec_call (nnn : Addr12) (s : State) : exec (.call nnn) s = execCall nnn s := rfl

@[simp] theorem exec_ret (s : State) : exec .ret s = execRet s := rfl

/-! ### The call stack in a frame -/

theorem Frame.setStack {f : Footprint} {s t : State} (h : Frame f s t) (hf : f.stack = true) (stack : Vector Word 16)
    (sp : Word) : Frame f s { t with stack := stack, sp := sp } :=
  { h with stack := fun e => by simp [hf] at e }

theorem Frame.trans {f : Footprint} {s t u : State} (h : Frame f s t) (h' : Frame f t u) : Frame f s u where
  regs r hr := (h'.regs r hr).trans (h.regs r hr)
  index e := (h'.index e).trans (h.index e)
  stack e := ⟨(h'.stack e).1.trans (h.stack e).1, (h'.stack e).2.trans (h.stack e).2⟩
  delay e := (h'.delay e).trans (h.delay e)
  sound e := (h'.sound e).trans (h.sound e)
  screen e := (h'.screen e).trans (h.screen e)
  random e := ⟨(h'.random e).1.trans (h.random e).1, (h'.random e).2.trans (h.random e).2⟩
  mem a ha := (h'.mem a ha).trans (h.mem a ha)
  keys := h'.keys.trans h.keys
  mode := h'.mode.trans h.mode
  driver := ⟨h'.driver.1.trans h.driver.1, h'.driver.2.trans h.driver.2⟩

theorem sp_add_one_toNat {sp : Word} (h : sp.toNat < 16) : (sp + 1).toNat = sp.toNat + 1 := by
  rw [BitVec.toNat_add_of_lt] <;> simp; omega

theorem sp_sub_one_toNat {sp : Word} {j : Nat} (h : sp.toNat = j + 1) : (sp - 1).toNat = j := by
  rw [BitVec.toNat_sub_of_le] <;> simp [BitVec.le_def, h]

/-! ### The statements -/

/-- Settles O3: a 12-bit and an 8-bit number add without a carry out of 16 bits. -/
theorem offsetJumpAddsV0 : Obligations.OffsetJumpAddsV0 := by
  intro nnn s
  have hpc : (addrOf nnn + wordOf (readReg s 0)).toNat = nnn.toNat + (readReg s 0).toNat := by
    have := nnn.isLt
    have := (readReg s 0).isLt
    rw [BitVec.toNat_add_of_lt] <;> simp only [addrOf_toNat, wordOf_toNat]; omega
  exact ⟨_, exec_jpV0 nnn s, hpc, (Frame.refl _ s).setPc _⟩

/-- Settles O4: below depth 16 the push goes through, and the entry it sets is the pc before the jump. -/
theorem callPushesItsOwnAddress : Obligations.CallPushesItsOwnAddress := by
  intro nnn s h
  refine ⟨_, (exec_call nnn s).trans (execCall_of_lt nnn h), sp_add_one_toNat h, addrOf_toNat nnn, fun j => ?_,
    ((Frame.refl _ s).setStack rfl _ _).setPc _⟩
  simp only [setPc_stack, Vector.getElem_set, eq_comm]

/-- Settles O5: with SP = j + 1 the pop reads entry j and leaves the array alone. -/
theorem retPopsAndAddsTwo : Obligations.RetPopsAndAddsTwo := by
  intro s j h
  exact ⟨_, (exec_ret s).trans (execRet_of_pos j.isLt h.symm), sp_sub_one_toNat h.symm, rfl, BitVec.toNat_add _ _,
    ((Frame.refl _ s).setStack rfl _ _).setPc _⟩

/-- Settles O7: the entry that RET pops is the one CALL pushed, and both frames leave out the call stack only. -/
theorem callThenReturnComesBack : Obligations.CallThenReturnComesBack := by
  intro nnn s h
  obtain ⟨t, ht, hsp, -, hstack, hframe⟩ := callPushesItsOwnAddress nnn s h
  obtain ⟨u, hu, hsp', hstack', hpc, hframe'⟩ := retPopsAndAddsTwo t ⟨s.sp.toNat, h⟩ hsp.symm
  refine ⟨t, u, ht, hu, ?_, BitVec.eq_of_toNat_eq hsp', fun j hj => ?_, hframe.trans hframe'⟩
  · rw [PcPlus, hpc, hstack, if_pos rfl]
  · simp only [hstack']
    rw [hstack, if_neg (Nat.ne_of_lt hj)]

/-- Settles O8, by induction on the calls: each goes through at its depth and leaves one entry more. -/
theorem callsNestToSixteen : Obligations.CallsNestToSixteen := by
  intro targets
  induction targets with
  | nil => exact fun s _ => ⟨s, rfl, rfl, fun nnn h => execCall_of_full nnn h⟩
  | cons nnn targets ih =>
    intro s h
    simp only [List.length_cons] at h ⊢
    obtain ⟨t, ht, hsp, -⟩ := callPushesItsOwnAddress nnn s (by omega)
    obtain ⟨u, hu, hspu, hfull⟩ := ih t (by omega)
    refine ⟨u, ?_, by omega, fun nnn' h' => hfull nnn' (by omega)⟩
    rw [List.map_cons, execAll, ht]
    exact hu

end Sys2Proof.Machine

/-!
PROOFS. The arithmetic of 43_alu.md and of the index register: the bitwise operations (R122 to R124), the five that write a
flag (R125 to R129) and ADD I (R136). The flag operations share one shape: a result to Vx, then the flag to VF.
-/
namespace Sys2Proof.Machine

@[simp] theorem exec_orReg (x y : RegNum) (s : State) :
    exec (.orReg x y) s = .next (advance (writeReg x (readReg s x ||| readReg s y) s)) := rfl

@[simp] theorem exec_andReg (x y : RegNum) (s : State) :
    exec (.andReg x y) s = .next (advance (writeReg x (readReg s x &&& readReg s y) s)) := rfl

@[simp] theorem exec_xorReg (x y : RegNum) (s : State) :
    exec (.xorReg x y) s = .next (advance (writeReg x (readReg s x ^^^ readReg s y) s)) := rfl

@[simp] theorem exec_addReg (x y : RegNum) (s : State) :
    exec (.addReg x y) s = .next (advance (writeResultFlag x (readReg s x + readReg s y)
      (carryFlag (readReg s x) (readReg s y)) s)) := rfl

@[simp] theorem exec_sub (x y : RegNum) (s : State) :
    exec (.sub x y) s = .next (advance (writeResultFlag x (readReg s x - readReg s y)
      (notBorrowFlag (readReg s x) (readReg s y)) s)) := rfl

@[simp] theorem exec_subn (x y : RegNum) (s : State) :
    exec (.subn x y) s = .next (advance (writeResultFlag x (readReg s y - readReg s x)
      (notBorrowFlag (readReg s y) (readReg s x)) s)) := rfl

@[simp] theorem exec_shr (x y : RegNum) (s : State) :
    exec (.shr x y) s = .next (advance (writeResultFlag x (readReg s x >>> 1) (shiftedOutRight (readReg s x)) s)) := rfl

@[simp] theorem exec_shl (x y : RegNum) (s : State) :
    exec (.shl x y) s = .next (advance (writeResultFlag x (readReg s x <<< 1) (shiftedOutLeft (readReg s x)) s)) := rfl

@[simp] theorem exec_addI (x : RegNum) (s : State) :
    exec (.addI x) s = .next (advance (setIndex (s.i + wordOf (readReg s x)) s)) := rfl

/-! ### A result and a flag -/

theorem Frame.writeFlag {f : Footprint} {s t : State} (h : Frame f s t) (hf : VF ∈ f.regs) (c : Bool) :
    Frame f s (writeFlag c t) :=
  h.writeReg hf _

theorem Frame.writeResultFlag {f : Footprint} {s t : State} (h : Frame f s t) {x : RegNum} (hx : x ∈ f.regs)
    (hf : VF ∈ f.regs) (b : Byte) (c : Bool) : Frame f s (writeResultFlag x b c t) :=
  (h.writeReg hx b).writeFlag hf c

theorem readReg_advance_writeFlag_VF (c : Bool) (s : State) : readReg (advance (writeFlag c s)) VF = flagByte c :=
  readReg_advance_writeReg_self VF _ s

theorem readReg_advance_writeResultFlag_VF (x : RegNum) (b : Byte) (c : Bool) (s : State) :
    readReg (advance (writeResultFlag x b c s)) VF = flagByte c :=
  readReg_advance_writeFlag_VF c _

theorem readReg_advance_writeResultFlag_of_ne {x : RegNum} (hx : x ≠ VF) (b : Byte) (c : Bool) (s : State) :
    readReg (advance (writeResultFlag x b c s)) x = b := by
  rw [readReg_advance, readReg_writeResultFlag, if_neg hx, if_pos rfl]

theorem pcPlus_and_frame_advance_writeResultFlag (x : RegNum) (b : Byte) (c : Bool) (s : State) :
    PcPlus 2 s (advance (writeResultFlag x b c s)) ∧ Frame { regs := [x, VF] } s (advance (writeResultFlag x b c s)) :=
  ⟨pcPlus_advance s _ rfl, ((Frame.refl _ s).writeResultFlag (by simp) (by simp) b c).advance⟩

/-- What the five flag operations have in common, in numbers: `r` is the result and `v` the flag of the specification. -/
theorem writeResultFlag_spec {x : RegNum} {b : Byte} {c : Bool} {r v : Nat} (s : State) (hr : b.toNat = r)
    (hv : (flagByte c).toNat = v) :
    (x ≠ VF → (readReg (advance (writeResultFlag x b c s)) x).toNat = r) ∧
      (readReg (advance (writeResultFlag x b c s)) VF).toNat = v ∧
      PcPlus 2 s (advance (writeResultFlag x b c s)) ∧ Frame { regs := [x, VF] } s (advance (writeResultFlag x b c s)) := by
  refine ⟨fun hx => ?_, ?_, pcPlus_and_frame_advance_writeResultFlag x b c s⟩
  · rw [readReg_advance_writeResultFlag_of_ne hx, hr]
  · rw [readReg_advance_writeResultFlag_VF, hv]

/-- What the three bitwise operations have in common: `p` is the result of the specification, bit by bit. -/
theorem writeReg_bits_spec (x : RegNum) {b : Byte} {p : Nat → Bool} (s : State) (hb : ∀ k, b.getLsbD k = p k) :
    PcPlus 2 s (advance (writeReg x b s)) ∧ Frame { regs := [x] } s (advance (writeReg x b s)) ∧
      ∀ k, (readReg (advance (writeReg x b s)) x).getLsbD k = p k := by
  obtain ⟨hpc, hframe⟩ := pcPlus_and_frame_advance_writeReg x b s
  refine ⟨hpc, hframe, fun k => ?_⟩
  rw [readReg_advance_writeReg_self, hb]

/-! ### Results and flags as numbers -/

theorem flagByte_toNat_eq_one_iff (c : Bool) : (flagByte c).toNat = 1 ↔ c = true := by cases c <;> decide

theorem carryFlag_toNat (a b : Byte) : (flagByte (carryFlag a b)).toNat = if 255 < a.toNat + b.toNat then 1 else 0 := by
  simp only [flagByte_toNat, carryFlag, decide_eq_true_eq]

theorem notBorrowFlag_toNat (a b : Byte) : (flagByte (notBorrowFlag a b)).toNat = if b.toNat ≤ a.toNat then 1 else 0 := by
  simp only [flagByte_toNat, notBorrowFlag, decide_eq_true_eq]

theorem byte_sub_toNat (a b : Byte) : (a - b).toNat = (a.toNat + 256 - b.toNat) % 256 := by
  have := b.isLt
  rw [BitVec.toNat_sub]
  omega

theorem byte_shiftRight_one_toNat (a : Byte) : (a >>> 1).toNat = a.toNat / 2 := by
  rw [BitVec.toNat_ushiftRight, Nat.shiftRight_one]

theorem byte_shiftLeft_one_toNat (a : Byte) : (a <<< 1).toNat = 2 * a.toNat % 256 := by
  rw [BitVec.toNat_shiftLeft, Nat.shiftLeft_eq, Nat.mul_comm, pow_one]

/-- A bit written as a flag is the bit's value. -/
theorem flagByte_getLsbD_toNat (a : Byte) (k : Nat) : (flagByte (a.getLsbD k)).toNat = a.toNat / 2 ^ k % 2 := by
  have hbit : a.getLsbD k = decide (a.toNat / 2 ^ k % 2 = 1) := Nat.testBit_eq_decide_div_mod_eq
  rw [flagByte_toNat, hbit]
  rcases Nat.mod_two_eq_zero_or_one (a.toNat / 2 ^ k) with h | h <;> simp [h]

theorem shiftedOutRight_toNat (a : Byte) : (flagByte (shiftedOutRight a)).toNat = a.toNat % 2 := by
  rw [shiftedOutRight, flagByte_getLsbD_toNat, pow_zero, Nat.div_one]

theorem shiftedOutLeft_toNat (a : Byte) : (flagByte (shiftedOutLeft a)).toNat = a.toNat / 128 := by
  have := a.isLt
  rw [shiftedOutLeft, flagByte_getLsbD_toNat]
  omega

/-! ### The statements -/

/-- Settles O14: each operation is one register write of the bitwise result. -/
theorem bitwiseOpsLeaveFlag : Obligations.BitwiseOpsLeaveFlag := by
  intro x y s
  exact ⟨⟨_, exec_orReg x y s, writeReg_bits_spec x s fun _ => BitVec.getLsbD_or⟩,
    ⟨_, exec_andReg x y s, writeReg_bits_spec x s fun _ => BitVec.getLsbD_and⟩,
    ⟨_, exec_xorReg x y s, writeReg_bits_spec x s fun _ => BitVec.getLsbD_xor⟩⟩

/-- Settles O15: the result is the 8-bit sum and the flag says that the sum of the numbers passes 255. -/
theorem addWritesSumAndCarry : Obligations.AddWritesSumAndCarry := by
  intro x y s
  exact ⟨_, exec_addReg x y s, writeResultFlag_spec s (BitVec.toNat_add _ _) (carryFlag_toNat _ _)⟩

/-- Settles O16: the two differ in the order of the operands only. -/
theorem subtractWritesNotBorrow : Obligations.SubtractWritesNotBorrow := by
  intro x y s
  exact ⟨⟨_, exec_sub x y s, writeResultFlag_spec s (byte_sub_toNat _ _) (notBorrowFlag_toNat _ _)⟩,
    ⟨_, exec_subn x y s, writeResultFlag_spec s (byte_sub_toNat _ _) (notBorrowFlag_toNat _ _)⟩⟩

/-- Settles O17: a shift by one halves or doubles, and the bit shifted out is bit 0 or bit 7. -/
theorem shiftsWriteTheBitShiftedOut : Obligations.ShiftsWriteTheBitShiftedOut := by
  intro x y s
  exact ⟨⟨_, exec_shr x y s, writeResultFlag_spec s (byte_shiftRight_one_toNat _) (shiftedOutRight_toNat _)⟩,
    ⟨_, exec_shl x y s, writeResultFlag_spec s (byte_shiftLeft_one_toNat _) (shiftedOutLeft_toNat _)⟩⟩

/-- Settles O20: the word written to I is the 16-bit sum with Vx widened. -/
theorem indexAddWrapsAtSixteenBits : Obligations.IndexAddWrapsAtSixteenBits := by
  intro x s
  refine ⟨_, exec_addI x s, ?_, pcPlus_and_frame_advance_setIndex _ s⟩
  rw [index_advance_setIndex, BitVec.toNat_add, wordOf_toNat]

end Sys2Proof.Machine

/-!
PROOFS. Single instructions with a case of their own: RND and its source (45_random.md), LD Vx, K by KEYWAIT_MODE
(47_keypad.md R157), LD F (49_font_bcd_block.md R165).
-/
namespace Sys2Proof.Machine

@[simp] theorem exec_ldVxK (x : RegNum) (s : State) : exec (.ldVxK x) s = execLdVxK x s := rfl

@[simp] theorem exec_ldF (x : RegNum) (s : State) :
    exec (.ldF x) s = .next (advance (setIndex (fontAddr (lowNibble (readReg s x))) s)) := rfl

/-! ### The random source -/

theorem nextRandom_of_cons {s : State} {b : Byte} {bs : List Byte} (h : s.rndSupply = b :: bs) : nextRandom s = b := by
  rw [nextRandom, h]

theorem nextRandom_of_nil {s : State} (h : s.rndSupply = []) : nextRandom s = Config.randomByte s.draws := by
  rw [nextRandom, h]

theorem consumeRandom_of_cons {s : State} {b : Byte} {bs : List Byte} (h : s.rndSupply = b :: bs) :
    consumeRandom s = { s with rndSupply := bs } := by
  rw [consumeRandom, h]

theorem consumeRandom_of_nil {s : State} (h : s.rndSupply = []) : consumeRandom s = { s with draws := s.draws + 1 } := by
  rw [consumeRandom, h]

theorem Frame.consumeRandom {f : Footprint} {s t : State} (h : Frame f s t) (hf : f.random = true) :
    Frame f s (consumeRandom t) where
  regs r hr := (readReg_consumeRandom t r).trans (h.regs r hr)
  index e := (consumeRandom_i t).trans (h.index e)
  stack e := ⟨(consumeRandom_sp t).trans (h.stack e).1, (consumeRandom_stack t).trans (h.stack e).2⟩
  delay e := (consumeRandom_dt t).trans (h.delay e)
  sound e := (consumeRandom_st t).trans (h.sound e)
  screen e := (consumeRandom_fb t).trans (h.screen e)
  random e := by simp [hf] at e
  mem a ha := by rw [consumeRandom_mem]; exact h.mem a ha
  keys := (consumeRandom_key t).trans h.keys
  mode := (consumeRandom_keywaitMode t).trans h.mode
  driver := ⟨(consumeRandom_script t).trans h.driver.1, (consumeRandom_driver t).trans h.driver.2⟩

/-- One byte taken from the random source, one register write and an advance. -/
theorem pcPlus_and_frame_advance_writeReg_consumeRandom (x : RegNum) (b : Byte) (s : State) :
    PcPlus 2 s (advance (writeReg x b (consumeRandom s))) ∧
      Frame { regs := [x], random := true } s (advance (writeReg x b (consumeRandom s))) :=
  ⟨pcPlus_advance s _ (consumeRandom_pc s),
    (((Frame.refl _ s).consumeRandom rfl).writeReg List.mem_cons_self b).advance⟩

/-! ### LD Vx, K -/

theorem execLdVxK_of_unimplemented (x : RegNum) {s : State} (h : s.keywaitMode = .unimplemented) :
    execLdVxK x s = .fault (.unimplementedOpcode .LD_VX_K) := by
  rw [execLdVxK, h]
  rfl

theorem execLdVxK_of_no_key (x : RegNum) {s : State} (h : s.keywaitMode = .wait) (hk : lowestKeyDown s = none) :
    execLdVxK x s = .next s := by
  simp only [execLdVxK, h, hk]

theorem execLdVxK_of_key (x : RegNum) {s : State} {k : Nibble} (h : s.keywaitMode = .wait)
    (hk : lowestKeyDown s = some k) : execLdVxK x s = .next (advance (writeReg x (k.zeroExtend 8) s)) := by
  simp only [execLdVxK, h, hk]

/-! ### The statements -/

/-- Settles O22: the source either has a byte laid out or gives the next free one, and each is taken once. -/
theorem randomSourceIsConsumed : Obligations.RandomSourceIsConsumed := by
  intro x nn s
  refine ⟨_, exec_rnd x nn s, fun b bs h => ?_, fun h => ?_, pcPlus_and_frame_advance_writeReg_consumeRandom x _ s⟩
  · rw [readReg_advance_writeReg_self, nextRandom_of_cons h, consumeRandom_of_cons h]
    exact ⟨rfl, rfl, rfl⟩
  · rw [readReg_advance_writeReg_self, nextRandom_of_nil h, consumeRandom_of_nil h]
    exact ⟨rfl, h, rfl⟩

/-- Settles O28: one case per KEYWAIT_MODE, the second by whether a key is down. -/
theorem keyWaitByMode : Obligations.KeyWaitByMode := by
  intro x s
  rw [exec_ldVxK]
  refine ⟨execLdVxK_of_unimplemented x, fun h hk => execLdVxK_of_no_key x h (lowestKeyDown_none hk),
    fun k h hk hmin =>
      ⟨_, execLdVxK_of_key x h (lowestKeyDown_some hk hmin), ?_, pcPlus_and_frame_advance_writeReg x _ s⟩⟩
  have := k.isLt
  rw [readReg_advance_writeReg_self, BitVec.toNat_setWidth]
  omega

/-- Settles O32: the font starts at 0 and has five bytes a digit, so no address of it comes near 16 bits. -/
theorem fontAddress : Obligations.FontAddress := by
  intro x s
  refine ⟨_, exec_ldF x s, ?_, pcPlus_and_frame_advance_setIndex _ s⟩
  rw [index_advance_setIndex, fontAddr, BitVec.toNat_ofNat, lowNibble_toNat, Config.fontBase, Config.fontStride]
  omega

end Sys2Proof.Machine

/-!
PROOFS. Memory (20_memory.md) and what moves bytes into and out of it: LD B (49_font_bcd_block.md R166), the block transfers
(R167, R168) and LOAD (70_reset_and_hazards.md R213). A store is one write of consecutive bytes, so what it leaves in memory
and its frame are said once, for any bytes.
-/
namespace Sys2Proof.Machine

/-! ### The canonical form -/

theorem readByte_cons_self (c : Host.Cell) (m : Memory) : readByte (c :: m) c.1 = c.2 := if_pos rfl

theorem readByte_cons_of_ne {c : Host.Cell} {a : Nat} (h : c.1 ≠ a) (m : Memory) :
    readByte (c :: m) a = readByte m a := if_neg h

theorem Memory.wf_cons {c : Host.Cell} {m : Memory} (h : Memory.wf (c :: m) = true) :
    c.2 ≠ resetByte c.1 ∧ (∀ d ∈ m, c.1 < d.1) ∧ m.wf = true := by
  obtain ⟨hpair, hcell⟩ := (Memory.wf_iff _).1 h
  exact ⟨(hcell c List.mem_cons_self).2, (List.pairwise_cons.1 hpair).1, Memory.wf_tail h⟩

/-- A canonical memory that lists a cell differs, at that cell, from one that lists only higher addresses. -/
theorem readByte_head_ne {c : Host.Cell} {m m' : Memory} (h : Memory.wf (c :: m) = true) (h' : ∀ d ∈ m', c.1 < d.1) :
    readByte (c :: m) c.1 ≠ readByte m' c.1 := by
  rw [readByte_cons_self, readByte_of_lt h']
  exact (Memory.wf_cons h).1

/-- Settles O41, by induction on one of the lists: the two heads are the same cell, since the lower of two different ones
would read as its reset contents in the other memory, and the tails then read alike. -/
theorem canonicalMemoryIsExtensional : Obligations.CanonicalMemoryIsExtensional := by
  intro m
  induction m with
  | nil =>
    intro m' _ hm' heq
    cases m' with
    | nil => rfl
    | cons d m' => exact absurd (heq d.1).symm (readByte_head_ne hm' (by simp))
  | cons c m ih =>
    intro m' hm hm' heq
    cases m' with
    | nil => exact absurd (heq c.1) (readByte_head_ne hm (by simp))
    | cons d m' =>
      obtain ⟨-, hlt, hwf⟩ := Memory.wf_cons hm
      obtain ⟨-, hlt', hwf'⟩ := Memory.wf_cons hm'
      rcases Nat.lt_trichotomy c.1 d.1 with hcd | hcd | hcd
      · exact absurd (heq c.1)
          (readByte_head_ne hm (List.forall_mem_cons.2 ⟨hcd, fun e he => hcd.trans (hlt' e he)⟩))
      · have hhead : c = d := Prod.ext hcd (by rw [← readByte_cons_self c m, heq, hcd, readByte_cons_self])
        subst hhead
        refine congrArg _ (ih m' hwf hwf' fun a => ?_)
        by_cases ha : c.1 = a
        · subst ha
          rw [readByte_of_lt hlt, readByte_of_lt hlt']
        · rw [← readByte_cons_of_ne ha m, heq, readByte_cons_of_ne ha]
      · exact absurd (heq d.1).symm
          (readByte_head_ne hm' (List.forall_mem_cons.2 ⟨hcd, fun e he => hcd.trans (hlt e he)⟩))

/-! ### Stores -/

@[simp] theorem exec_ldB (x : RegNum) (s : State) : exec (.ldB x) s = execLdB x s := rfl

@[simp] theorem exec_stRegs (x : RegNum) (s : State) : exec (.stRegs x) s = execStRegs x s := rfl

@[simp] theorem exec_ldRegs (x : RegNum) (s : State) : exec (.ldRegs x) s = execLdRegs x s := rfl

/-- What LD B and LD [I], Vx have done when they answer a next state: one write of consecutive bytes, all of which exist. -/
theorem exec_ldB_eq_next {x : RegNum} {s t : State} (h : exec (.ldB x) s = .next t) :
    s.i.toNat + 3 ≤ 4096 ∧ t = advance (setMem (writeBytes s.mem s.i.toNat (bcdDigits (readReg s x))) s) := by
  rw [exec_ldB, execLdB_eq] at h
  split at h <;> cases h
  next hfit => exact ⟨hfit.resolve_left (Nat.succ_ne_zero 2), rfl⟩

theorem exec_stRegs_eq_next {x : RegNum} {s t : State} (h : exec (.stRegs x) s = .next t) :
    s.i.toNat + (x.toNat + 1) ≤ 4096 ∧ t = advance (setMem (writeBytes s.mem s.i.toNat (regBlock x s)) s) := by
  rw [exec_stRegs, execStRegs_eq] at h
  split at h <;> cases h
  next hfit => exact ⟨hfit.resolve_left (Nat.succ_ne_zero _), rfl⟩

/-- Consecutive bytes may be written inside the footprint. -/
theorem frame_setMem_writeBytes {f : Footprint} (s : State) {a n : Nat} {bs : List Byte} (ha : f.memAt = a)
    (hn : f.memLen = n) (hl : bs.length = n) : Frame f s (setMem (writeBytes s.mem a bs) s) :=
  (Frame.refl f s).setMem fun a' h => readByte_writeBytes_outside s.mem a bs (by rwa [ha, hn, ← hl] at h)

/-- The register block V0..Vx holds V[r] at place r. -/
theorem regBlock_getElem_reg (x r : RegNum) (s : State) (h : r.toNat < (regBlock x s).length) :
    (regBlock x s)[r.toNat] = readReg s r := by
  rw [regBlock_getElem, BitVec.ofNat_toNat, BitVec.setWidth_eq]

/-- The three digits of a byte, each within its place, make up the byte. -/
theorem bcd_digits (b : Byte) :
    b.toNat = 100 * (BitVec.ofNat 8 (b.toNat / 100)).toNat + 10 * (BitVec.ofNat 8 (b.toNat / 10 % 10)).toNat +
        (BitVec.ofNat 8 (b.toNat % 10)).toNat ∧
      (BitVec.ofNat 8 (b.toNat / 10 % 10)).toNat ≤ 9 ∧ (BitVec.ofNat 8 (b.toNat % 10)).toNat ≤ 9 := by
  have := b.isLt
  simp only [BitVec.toNat_ofNat]
  omega

/-- Settles O33: the bytes written read back as the three digits, and they are the only ones written. -/
theorem bcdStoresThreeDigits : Obligations.BcdStoresThreeDigits := by
  intro x s
  refine ⟨fun hwf hfit => ?_, fun hfit => (execLdB_eq x s).trans (if_neg hfit)⟩
  have hread := readByte_writeBytes_at hwf s.i.toNat (bcdDigits (readReg s x))
  have h0 : readByte (writeBytes s.mem s.i.toNat (bcdDigits (readReg s x))) s.i.toNat = _ := hread 0 (Nat.succ_pos 2)
  have h1 := hread 1 (Nat.one_lt_succ_succ 1)
  have h2 := hread 2 (Nat.lt_succ_self 2)
  refine ⟨_, (execLdB_eq x s).trans (if_pos hfit), ?_⟩
  rw [advance_mem, setMem_mem, h0, h1, h2]
  obtain ⟨hsum, htens, hunits⟩ := bcd_digits (readReg s x)
  exact ⟨hsum, htens, hunits, pcPlus_advance s _ rfl, (frame_setMem_writeBytes s rfl rfl rfl).advance⟩

/-- Settles O34: the block written reads back register by register. -/
theorem blockStoreCopiesRegisters : Obligations.BlockStoreCopiesRegisters := by
  intro x s
  refine ⟨fun hwf hfit => ⟨_, (execStRegs_eq x s).trans (if_pos hfit), fun r hr => ?_, pcPlus_advance s _ rfl,
    (frame_setMem_writeBytes s rfl rfl (regBlock_length x s)).advance⟩,
    fun hfit => (execStRegs_eq x s).trans (if_neg hfit)⟩
  have hlen : r.toNat < (regBlock x s).length := by rw [regBlock_length]; omega
  exact (readByte_writeBytes_at hwf s.i.toNat _ _ hlen).trans (regBlock_getElem_reg x r s hlen)

/-- A block store that answers a next state fits. -/
theorem fits_of_execStRegs {x : RegNum} {s t : State} (h : exec (.stRegs x) s = .next t) :
    AccessFits s.i.toNat (x.toNat + 1) :=
  .inr (exec_stRegs_eq_next h).1

/-- What a block store leaves in a canonical memory: V[r] at I + r, for each r up to x. -/
theorem readByte_of_execStRegs {x : RegNum} {s t : State} (hwf : s.mem.wf = true) (h : exec (.stRegs x) s = .next t)
    (r : RegNum) (hr : r.toNat ≤ x.toNat) : readByte t.mem (s.i.toNat + r.toNat) = readReg s r := by
  obtain ⟨t', ht', hmem, -⟩ := (blockStoreCopiesRegisters x s).1 hwf (fits_of_execStRegs h)
  obtain rfl : t' = t := Host.Outcome.next.inj (ht'.symm.trans h)
  exact hmem r hr

/-! ### Loads -/

/-- What a block load has done when it answers a next state. -/
theorem exec_ldRegs_eq_next {x : RegNum} {s t : State} (h : exec (.ldRegs x) s = .next t) :
    t = advance (writeRegs 0 (readBytes s.mem s.i.toNat (x.toNat + 1)) s) := by
  rw [exec_ldRegs, execLdRegs_eq] at h
  split at h <;> cases h
  rfl

/-- Registers V0..Vx after bytes are loaded into them. -/
theorem readReg_writeRegs_readBytes (x r : RegNum) (m : Memory) (a : Nat) (s : State) :
    readReg (writeRegs 0 (readBytes m a (x.toNat + 1)) s) r =
      if r.toNat ≤ x.toNat then readByte m (a + r.toNat) else readReg s r := by
  have := x.isLt
  rw [readReg_writeRegs _ _ _ _ (by rw [readBytes_length]; omega)]
  simp only [readBytes_length, readBytes_getElem, Nat.zero_le, true_and, Nat.zero_add, Nat.sub_zero, Nat.lt_succ_iff,
    dite_eq_ite]

theorem frame_writeRegs_upTo (x : RegNum) (m : Memory) (a : Nat) (s : State) :
    Frame { regs := regsUpTo x } s (writeRegs 0 (readBytes m a (x.toNat + 1)) s) :=
  (Frame.refl _ s).writeRegs 0 _ fun _ _ hj => mem_regsUpTo (by simpa using hj)

/-- Settles O35: the bytes read go to V0..Vx in order, and no other register is written. -/
theorem blockLoadCopiesMemory : Obligations.BlockLoadCopiesMemory := by
  intro x s
  refine ⟨fun hfit => ⟨_, (execLdRegs_eq x s).trans (if_pos hfit), fun r hr => ?_, fun r hr => ?_,
    pcPlus_advance s _ (writeRegs_pc _ 0 s), (frame_writeRegs_upTo x s.mem s.i.toNat s).advance⟩,
    fun hfit => (execLdRegs_eq x s).trans (if_neg hfit)⟩
  · rw [readReg_advance, readReg_writeRegs_readBytes, if_pos hr]
  · rw [readReg_advance, readReg_writeRegs_readBytes, if_neg (Nat.not_le.2 hr)]

/-- Settles O36: the load reads the addresses the store wrote, and leaves the registers above x. -/
theorem blockStoreThenLoadRestores : Obligations.BlockStoreThenLoadRestores := by
  intro x s t u hwf h hmem hi
  obtain ⟨w, hw, hload, hkeep, -⟩ := (blockLoadCopiesMemory x u).1 (hi ▸ fits_of_execStRegs h)
  refine ⟨w, hw, fun r => ?_⟩
  split
  · next hr => rw [hload r hr, hmem, hi, readByte_of_execStRegs hwf h r hr]
  · next hr => exact hkeep r (Nat.lt_of_not_le hr)

/-- Settles O40: the fetch reads the two addresses at pc, where the store left the two registers. -/
theorem storeSeenByNextFetch : Obligations.StoreSeenByNextFetch := by
  intro x k k' s t hwf h hk' hx hpc
  have hfit := fits_of_execStRegs h
  have hhi := readByte_of_execStRegs hwf h k (by omega)
  have hlo := readByte_of_execStRegs hwf h k' hx
  obtain ⟨w, hw, hval⟩ := fetchIsBigEndian t (by omega)
  refine ⟨w, hw, ?_⟩
  rw [hval, hpc, hhi, Nat.add_assoc, ← hk', hlo]

/-! ### LOAD -/

theorem perform_load_of_fits {bytes : List Byte} (h : bytes.length ≤ 3584) (s : State) :
    perform (.load bytes) s = .next (setMem (writeBytes s.mem 0x200 bytes) s) :=
  if_neg (Nat.not_lt.2 h)

theorem perform_load_of_too_long {bytes : List Byte} (h : 3584 < bytes.length) (s : State) :
    perform (.load bytes) s = .fault (.programTooLarge bytes.length) :=
  if_pos h

/-- Settles O54: LOAD is one write of consecutive bytes, or the error. -/
theorem loadCopiesTheImage : Obligations.LoadCopiesTheImage := by
  intro bytes s
  refine ⟨fun hwf hlen => ⟨_, perform_load_of_fits hlen s, readByte_writeBytes_at hwf 0x200 bytes, rfl,
    frame_setMem_writeBytes s rfl rfl rfl⟩, fun hlen => perform_load_of_too_long hlen s⟩

end Sys2Proof.Machine

/-!
PROOFS. DRW (46_draw_and_clear.md): which pixels a sprite inverts, the collision flag, and a sprite drawn twice
(95_test_vectors.md S5). The pixels of one DRW are covered once each, so a pixel is inverted exactly when it is covered.
-/
namespace Sys2Proof.Machine

@[simp] theorem exec_drw (x y : RegNum) (n : Nibble) (s : State) : exec (.drw x y n) s = execDrw x y n s := rfl

/-! ### One sprite -/

/-- A pixel after a sprite is drawn: inverted where the sprite covers it. -/
theorem pixel_drawSprite (m : Memory) (a n row0 col0 : Nat) (fb : Framebuffer) (row : Fin 32) (col : Fin 64) :
    pixel (drawSprite (readBytes m a n) row0 col0 fb).1 row col =
      (pixel fb row col ^^ decide (spriteCovers m a n row0 col0 row col)) := by
  obtain ⟨hcov, hnot⟩ := drawRows_pixel (readBytes m a n) row0 col0 (fb, false) row col
  rw [rowsCover_readBytes] at hcov hnot
  by_cases h : spriteCovers m a n row0 col0 row col
  · rw [drawSprite, hcov h, decide_eq_true h, Bool.xor_true]
  · rw [drawSprite, hnot h, decide_eq_false h, Bool.xor_false]

/-- The collision flag of a sprite: a covered pixel was on. -/
theorem drawSprite_hit_iff (m : Memory) (a n row0 col0 : Nat) (fb : Framebuffer) :
    (drawSprite (readBytes m a n) row0 col0 fb).2 = true ↔
      ∃ row col, pixel fb row col = true ∧ spriteCovers m a n row0 col0 row col := by
  rw [drawSprite, drawRows_hit]
  simp only [Bool.false_eq_true, false_or, rowsCover_readBytes, and_comm]

/-- A pixel is turned off exactly when it was on and is covered. -/
theorem pixel_turned_off_iff (m : Memory) (a n row0 col0 : Nat) (fb : Framebuffer) (row : Fin 32) (col : Fin 64) :
    (pixel fb row col = true ∧ pixel (drawSprite (readBytes m a n) row0 col0 fb).1 row col = false) ↔
      (pixel fb row col = true ∧ spriteCovers m a n row0 col0 row col) := by
  rw [pixel_drawSprite]
  refine and_congr_right fun hon => ?_
  rw [hon, Bool.true_xor, Bool.not_eq_false', decide_eq_true_iff]

/-- A pixel is turned on exactly when it is on afterwards and covered. -/
theorem pixel_turned_on_iff (m : Memory) (a n row0 col0 : Nat) (fb : Framebuffer) (row : Fin 32) (col : Fin 64) :
    (pixel fb row col = false ∧ pixel (drawSprite (readBytes m a n) row0 col0 fb).1 row col = true) ↔
      (pixel (drawSprite (readBytes m a n) row0 col0 fb).1 row col = true ∧ spriteCovers m a n row0 col0 row col) := by
  rw [pixel_drawSprite, and_comm]
  refine and_congr_right fun hon => ?_
  cases hp : pixel fb row col with
  | false =>
    rw [hp, Bool.false_xor] at hon
    exact iff_of_true rfl (of_decide_eq_true hon)
  | true =>
    rw [hp, Bool.true_xor, Bool.not_eq_true'] at hon
    exact iff_of_false nofun (of_decide_eq_false hon)

/-- A sprite drawn twice at one place leaves the framebuffer as it was. -/
theorem drawSprite_twice (m : Memory) (a n row0 col0 : Nat) (fb : Framebuffer) :
    (drawSprite (readBytes m a n) row0 col0 (drawSprite (readBytes m a n) row0 col0 fb).1).1 = fb := by
  refine framebuffer_ext fun row col => ?_
  rw [pixel_drawSprite, pixel_drawSprite, Bool.xor_assoc, Bool.xor_self, Bool.xor_false]

/-- The second drawing collides exactly when the first turned a pixel on. -/
theorem drawSprite_twice_hit_iff (m : Memory) (a n row0 col0 : Nat) (fb : Framebuffer) :
    (drawSprite (readBytes m a n) row0 col0 (drawSprite (readBytes m a n) row0 col0 fb).1).2 = true ↔
      ∃ row col, pixel fb row col = false ∧ pixel (drawSprite (readBytes m a n) row0 col0 fb).1 row col = true := by
  rw [drawSprite_hit_iff]
  exact exists_congr fun row => exists_congr fun col => (pixel_turned_on_iff m a n row0 col0 fb row col).symm

/-! ### The instruction -/

/-- The sprite of a DRW in state `s`, drawn on its framebuffer, with the collision flag. -/
def drawn (x y : RegNum) (n : Nibble) (s : State) : Framebuffer × Bool :=
  drawSprite (readBytes s.mem s.i.toNat n.toNat) (originRow (readReg s y)) (originCol (readReg s x)) s.fb

theorem exec_drw_of_fits (x y : RegNum) {n : Nibble} {s : State} (h : AccessFits s.i.toNat n.toNat) :
    exec (.drw x y n) s = .next (advance (writeFlag (drawn x y n s).2 (setScreen (drawn x y n s).1 s))) :=
  (execDrw_eq x y n s).trans (if_pos h)

/-- What DRW has done when it answers a next state. -/
theorem exec_drw_eq_next {x y : RegNum} {n : Nibble} {s t : State} (h : exec (.drw x y n) s = .next t) :
    AccessFits s.i.toNat n.toNat ∧ t = advance (writeFlag (drawn x y n s).2 (setScreen (drawn x y n s).1 s)) := by
  by_cases hfit : AccessFits s.i.toNat n.toNat
  · rw [exec_drw_of_fits x y hfit] at h
    exact ⟨hfit, (Host.Outcome.next.inj h).symm⟩
  · rw [exec_drw, execDrw_eq, if_neg hfit] at h
    cases h

/-! ### The statements -/

/-- Settles O39: the check of the n bytes comes before everything else. -/
theorem drawOutOfRangeFaults : Obligations.DrawOutOfRangeFaults := by
  intro x y n s hfit
  exact (execDrw_eq x y n s).trans (if_neg hfit)

/-- Settles O24: the framebuffer written is that of the drawn sprite. -/
theorem drawInvertsTheClippedSprite : Obligations.DrawInvertsTheClippedSprite := by
  intro x y n s hfit
  refine ⟨_, exec_drw_of_fits x y hfit, fun row col => ?_, pcPlus_advance s _ rfl,
    (((Frame.refl _ s).setScreen rfl _).writeFlag List.mem_cons_self _).advance⟩
  have hpixel := pixel_drawSprite s.mem s.i.toNat n.toNat ((readReg s y).toNat % 32) ((readReg s x).toNat % 64) s.fb row col
  refine ⟨fun hcov => hpixel.trans ?_, fun hcov => hpixel.trans ?_⟩
  · rw [decide_eq_true hcov, Bool.xor_true]
  · rw [decide_eq_false hcov, Bool.xor_false]

/-- Settles O25: a pixel turned off is a covered one that was on, and the flag says that there is one. -/
theorem collisionFlagExact : Obligations.CollisionFlagExact := by
  intro x y n s t h
  obtain ⟨-, rfl⟩ := exec_drw_eq_next h
  have hoff : (∃ row col, pixel s.fb row col = true ∧ pixel (drawn x y n s).1 row col = false) ↔
      ∃ row col, pixel s.fb row col = true ∧
        spriteCovers s.mem s.i.toNat n.toNat (originRow (readReg s y)) (originCol (readReg s x)) row col :=
    exists_congr fun row => exists_congr fun col => pixel_turned_off_iff _ _ _ _ _ s.fb row col
  have hhit : (drawn x y n s).2 = true ↔ ∃ row col, pixel s.fb row col = true ∧ pixel (drawn x y n s).1 row col = false :=
    (drawSprite_hit_iff ..).trans hoff.symm
  simp only [readReg_advance_writeFlag_VF, flagByte_toNat, advance_fb, writeFlag_fb, setScreen_fb]
  refine ⟨fun he => if_pos (hhit.2 he), fun he => if_neg (mt hhit.1 he), hoff⟩

/-- A DRW whose operands are not VF leaves the place of its sprite, so a second one draws the same sprite over the first. -/
theorem drawn_after_drawn {x y : RegNum} (hx : x ≠ VF) (hy : y ≠ VF) (n : Nibble) (s : State) (c : Bool) :
    drawn x y n (advance (writeFlag c (setScreen (drawn x y n s).1 s))) =
      drawSprite (readBytes s.mem s.i.toNat n.toNat) (originRow (readReg s y)) (originCol (readReg s x))
        (drawn x y n s).1 := by
  have hsame : ∀ r, r ≠ VF → readReg (advance (writeFlag c (setScreen (drawn x y n s).1 s))) r = readReg s r :=
    fun r hr => readReg_writeReg_of_ne hr _ _
  rw [drawn, hsame x hx, hsame y hy]
  rfl

/-- Settles O26: the second draw inverts the same pixels again. -/
theorem drawTwiceRestores : Obligations.DrawTwiceRestores := by
  intro x y n s t hx hy h
  obtain ⟨hfit, rfl⟩ := exec_drw_eq_next h
  refine ⟨_, exec_drw_of_fits x y hfit, ?_, ?_⟩
  · rw [drawn_after_drawn hx hy]
    exact drawSprite_twice ..
  · rw [readReg_advance_writeFlag_VF, flagByte_toNat_eq_one_iff, drawn_after_drawn hx hy]
    exact drawSprite_twice_hit_iff ..

end Sys2Proof.Machine

/-!
PROOFS. The frame of every instruction (10_state.md R43), and what follows from it: no instruction changes a timer but the two
that set one, and VF is written as a flag by six instructions only.
-/
namespace Sys2Proof.Machine

/-- Settles O56, instruction by instruction: each is a few named updates, and each update has its rule for frames. -/
theorem everyInstructionKeepsItsFrame : Obligations.EveryInstructionKeepsItsFrame := by
  intro i s t h
  cases i with
  | sys nnn => cases h; exact (Frame.refl _ s).advance
  | jp nnn | jpV0 nnn => cases h; exact (Frame.refl _ s).setPc _
  | seImm x nn | sneImm x nn => cases h; exact (Frame.refl _ s).skipIf _
  | seReg x y z | sneReg x y z => cases h; exact (Frame.refl _ s).skipIf _
  | skp x | sknp x => cases h; exact (Frame.refl _ s).skipIf _
  | cls => cases h; exact (pcPlus_and_frame_advance_setScreen _ s).2
  | call nnn =>
    obtain ⟨hs, rfl⟩ := execCall_eq_next h
    exact ((Frame.refl _ s).setStack rfl _ _).setPc _
  | ret =>
    obtain ⟨j, hj, hs, rfl⟩ := execRet_eq_next h
    exact ((Frame.refl _ s).setStack rfl _ _).setPc _
  | ldImm x nn | addImm x nn => cases h; exact (pcPlus_and_frame_advance_writeReg x _ s).2
  | ldReg x y | orReg x y | andReg x y | xorReg x y => cases h; exact (pcPlus_and_frame_advance_writeReg x _ s).2
  | ldVxDt x => cases h; exact (pcPlus_and_frame_advance_writeReg x _ s).2
  | ldVxK x =>
    obtain ⟨-, ⟨k, -, rfl⟩ | ⟨-, rfl⟩⟩ := execLdVxK_eq_next h
    · exact (pcPlus_and_frame_advance_writeReg x _ s).2
    · exact Frame.refl _ _
  | addReg x y | sub x y | subn x y | shr x y | shl x y =>
    cases h; exact (pcPlus_and_frame_advance_writeResultFlag x _ _ s).2
  | ldI nnn => cases h; exact (pcPlus_and_frame_advance_setIndex _ s).2
  | addI x | ldF x => cases h; exact (pcPlus_and_frame_advance_setIndex _ s).2
  | rnd x nn => cases h; exact (pcPlus_and_frame_advance_writeReg_consumeRandom x _ s).2
  | drw x y n =>
    obtain ⟨-, rfl⟩ := exec_drw_eq_next h
    exact (((Frame.refl _ s).setScreen rfl _).writeFlag List.mem_cons_self _).advance
  | ldDtVx x => cases h; exact (pcPlus_and_frame_advance_setDelay _ s).2
  | ldStVx x => cases h; exact (pcPlus_and_frame_advance_setSound _ s).2
  | ldB x =>
    obtain ⟨-, rfl⟩ := exec_ldB_eq_next h
    exact (frame_setMem_writeBytes s rfl rfl rfl).advance
  | stRegs x =>
    obtain ⟨-, rfl⟩ := exec_stRegs_eq_next h
    exact (frame_setMem_writeBytes s rfl rfl (regBlock_length x s)).advance
  | ldRegs x =>
    obtain rfl := exec_ldRegs_eq_next h
    exact (frame_writeRegs_upTo x s.mem s.i.toNat s).advance

/-! ### Which instructions have a piece of state in their footprint -/

theorem footprint_delay (i : Instr) (s : State) : (footprint i s).delay = false ∨ ∃ x, i = .ldDtVx x := by
  cases i with
  | ldDtVx x => exact .inr ⟨x, rfl⟩
  | _ => exact .inl rfl

theorem footprint_sound (i : Instr) (s : State) : (footprint i s).sound = false ∨ ∃ x, i = .ldStVx x := by
  cases i with
  | ldStVx x => exact .inr ⟨x, rfl⟩
  | _ => exact .inl rfl

theorem footprint_stack (i : Instr) (s : State) : (footprint i s).stack = false ∨ i = .ret ∨ ∃ nnn, i = .call nnn := by
  cases i with
  | ret => exact .inr (.inl rfl)
  | call nnn => exact .inr (.inr ⟨nnn, rfl⟩)
  | _ => exact .inl rfl

theorem footprint_random {i : Instr} (h : i.tag ≠ .RND) (s : State) : (footprint i s).random = false := by
  cases i with
  | rnd x nn => exact absurd rfl h
  | _ => rfl

/-- Settles O31: DT and ST are in the footprint of one instruction each, which writes Vx. -/
theorem instructionsNeverTick : Obligations.InstructionsNeverTick := by
  intro i s t h
  have hframe := everyInstructionKeepsItsFrame i s t h
  constructor
  · rcases footprint_delay i s with hf | ⟨x, rfl⟩
    · exact .inl (hframe.delay hf)
    · cases h
      exact .inr ⟨x, rfl, dt_advance_setDelay _ s⟩
  · rcases footprint_sound i s with hf | ⟨x, rfl⟩
    · exact .inl (hframe.sound hf)
    · cases h
      exact .inr ⟨x, rfl, st_advance_setSound _ s⟩

/-- The six instructions with a flag leave a flag in VF. -/
theorem exists_flag_of_exec {i : Instr} {s t : State} (h : exec i s = .next t)
    (hi : i.tag ∈ [OpcodeTag.ADD_REG, .SUB, .SUBN, .SHR, .SHL, .DRW]) : ∃ c, readReg t VF = flagByte c := by
  cases i with
  | addReg x y | sub x y | subn x y | shr x y | shl x y =>
    cases h
    exact ⟨_, readReg_advance_writeResultFlag_VF x _ _ s⟩
  | drw x y n =>
    obtain ⟨-, rfl⟩ := exec_drw_eq_next h
    exact ⟨_, readReg_advance_writeFlag_VF _ _⟩
  | _ => simp [Instr.tag] at hi

/-- Settles O18: six instructions leave a flag byte, and for the others the frame speaks of VF. -/
theorem flagOnlyFromSixInstructions : Obligations.FlagOnlyFromSixInstructions := by
  intro i s t h
  refine ⟨fun hi => ?_, fun _ => ?_⟩
  · obtain ⟨c, hc⟩ := exists_flag_of_exec h hi
    rw [hc]
    exact flagByte_zero_or_one c
  · by_cases hf : VF ∈ (footprint i s).regs
    · exact .inr hf
    · exact .inl ((everyInstructionKeepsItsFrame i s t h).regs VF hf)

end Sys2Proof.Machine

/-!
PROOFS. Errors (60_exceptions.md): `Raises` lists once which instruction raises which error in which state, and an execution
ends in an error exactly so. An error depends on five pieces of state only, which TICK and KEYWRITE do not touch.
-/
namespace Sys2Proof.Machine

/-- How many bytes from I upward an instruction reads or writes (20_memory.md R52). -/
def accessLen : Instr → Nat
  | .drw _ _ n => n.toNat
  | .ldB _ => 3
  | .stRegs x | .ldRegs x => x.toNat + 1
  | _ => 0

/-- The errors of the instructions (60_exceptions.md R176, R178, R179, R181). -/
inductive Raises (s : State) : Instr → Fault → Prop
  | stackOverflow {nnn : Addr12} (h : s.sp.toNat = 16) : Raises s (.call nnn) .stackOverflow
  | stackUnderflow (h : s.sp.toNat = 0) : Raises s .ret .stackUnderflow
  | noKeyWait {x : RegNum} (h : s.keywaitMode = .unimplemented) : Raises s (.ldVxK x) (.unimplementedOpcode .LD_VX_K)
  | outOfRange {i : Instr} (h : ¬ AccessFits s.i.toNat (accessLen i)) :
      Raises s i (.memoryOutOfBounds (reportedAddress s.i.toNat))

theorem execCall_of_gt (nnn : Addr12) {s : State} (h : 16 < s.sp.toNat) :
    execCall nnn s = .refused .stackPointerOutOfRange :=
  pushEntry_of_gt h _ _

theorem execRet_of_gt {s : State} (h : 16 < s.sp.toNat) : execRet s = .refused .stackPointerOutOfRange :=
  popEntry_of_gt h _

/-- RET by depth: empty, 1 to 16 entries, or a depth that no operation reaches. -/
theorem execRet_cases (s : State) :
    (s.sp.toNat = 0 ∧ execRet s = .fault .stackUnderflow) ∨ (∃ t, execRet s = .next t) ∨
      (16 < s.sp.toNat ∧ execRet s = .refused .stackPointerOutOfRange) := by
  rcases Nat.lt_or_ge 16 s.sp.toNat with hgt | hle
  · exact .inr (.inr ⟨hgt, execRet_of_gt hgt⟩)
  · rcases Nat.eq_zero_or_pos s.sp.toNat with hzero | hpos
    · exact .inl ⟨hzero, execRet_of_zero hzero⟩
    · obtain ⟨j, hj⟩ := Nat.exists_eq_succ_of_ne_zero (Nat.ne_of_gt hpos)
      exact .inr (.inl ⟨_, execRet_of_pos (by omega) hj⟩)

/-- CALL by depth: room for an entry, full, or a depth that no operation reaches. -/
theorem execCall_cases (nnn : Addr12) (s : State) :
    (s.sp.toNat = 16 ∧ execCall nnn s = .fault .stackOverflow) ∨ (∃ t, execCall nnn s = .next t) ∨
      (16 < s.sp.toNat ∧ execCall nnn s = .refused .stackPointerOutOfRange) := by
  rcases Nat.lt_trichotomy s.sp.toNat 16 with hlt | hfull | hgt
  · exact .inr (.inl ⟨_, execCall_of_lt nnn hlt⟩)
  · exact .inl ⟨hfull, execCall_of_full nnn hfull⟩
  · exact .inr (.inr ⟨hgt, execCall_of_gt nnn hgt⟩)

/-- The check of an access that does not fit is the first thing its instruction does. -/
theorem exec_of_not_fits {i : Instr} {s : State} (h : ¬ AccessFits s.i.toNat (accessLen i)) :
    exec i s = .fault (.memoryOutOfBounds (reportedAddress s.i.toNat)) := by
  cases i with
  | drw x y n => exact drawOutOfRangeFaults x y n s h
  | ldB x => exact (execLdB_eq x s).trans (if_neg h)
  | stRegs x => exact (execStRegs_eq x s).trans (if_neg h)
  | ldRegs x => exact (execLdRegs_eq x s).trans (if_neg h)
  | _ => exact absurd (.inl rfl) h

/-- Every instruction raises its error, answers a next state, or is refused with SP above 16. -/
theorem exec_cases (i : Instr) (s : State) :
    (∃ f, Raises s i f ∧ exec i s = .fault f) ∨ (∃ t, exec i s = .next t) ∨
      (16 < s.sp.toNat ∧ ∃ r, exec i s = .refused r) := by
  by_cases hfit : AccessFits s.i.toNat (accessLen i)
  case neg => exact .inl ⟨_, .outOfRange hfit, exec_of_not_fits hfit⟩
  cases i with
  | call nnn =>
    rcases execCall_cases nnn s with ⟨hsp, h⟩ | h | ⟨hsp, h⟩
    · exact .inl ⟨_, .stackOverflow hsp, h⟩
    · exact .inr (.inl h)
    · exact .inr (.inr ⟨hsp, _, h⟩)
  | ret =>
    rcases execRet_cases s with ⟨hsp, h⟩ | h | ⟨hsp, h⟩
    · exact .inl ⟨_, .stackUnderflow hsp, h⟩
    · exact .inr (.inl h)
    · exact .inr (.inr ⟨hsp, _, h⟩)
  | ldVxK x =>
    cases hmode : s.keywaitMode with
    | unimplemented => exact .inl ⟨_, .noKeyWait hmode, execLdVxK_of_unimplemented x hmode⟩
    | wait =>
      cases hkey : lowestKeyDown s with
      | none => exact .inr (.inl ⟨_, execLdVxK_of_no_key x hmode hkey⟩)
      | some k => exact .inr (.inl ⟨_, execLdVxK_of_key x hmode hkey⟩)
  | drw x y n => exact .inr (.inl ⟨_, exec_drw_of_fits x y hfit⟩)
  | ldB x => exact .inr (.inl ⟨_, (execLdB_eq x s).trans (if_pos hfit)⟩)
  | stRegs x => exact .inr (.inl ⟨_, (execStRegs_eq x s).trans (if_pos hfit)⟩)
  | ldRegs x => exact .inr (.inl ⟨_, (execLdRegs_eq x s).trans (if_pos hfit)⟩)
  | _ => exact .inr (.inl ⟨_, rfl⟩)

theorem exec_of_raises {i : Instr} {s : State} {f : Fault} (h : Raises s i f) : exec i s = .fault f := by
  cases h with
  | stackOverflow h => exact execCall_of_full _ h
  | stackUnderflow h => exact execRet_of_zero h
  | noKeyWait h => exact execLdVxK_of_unimplemented _ h
  | outOfRange h => exact exec_of_not_fits h

theorem exec_eq_fault_iff {i : Instr} {s : State} {f : Fault} : exec i s = .fault f ↔ Raises s i f := by
  refine ⟨fun h => ?_, exec_of_raises⟩
  rcases exec_cases i s with ⟨f', hr, h'⟩ | ⟨t, h'⟩ | ⟨-, r, h'⟩ <;> cases h.symm.trans h'
  exact hr

theorem exec_ne_refused {i : Instr} {s : State} (h : s.sp.toNat ≤ 16) (r : Refusal) : exec i s ≠ .refused r := by
  intro hr
  rcases exec_cases i s with ⟨f, -, h'⟩ | ⟨t, h'⟩ | ⟨hgt, -⟩
  · cases hr.symm.trans h'
  · cases hr.symm.trans h'
  · exact absurd hgt (Nat.not_lt.2 h)

/-! ### The statements about one instruction -/

/-- Settles O6: the two stack errors have one cause each. -/
theorem stackErrorsExactly : Obligations.StackErrorsExactly := by
  intro i s _
  rw [exec_eq_fault_iff, exec_eq_fault_iff]
  refine ⟨⟨?_, ?_⟩, ⟨?_, ?_⟩⟩
  · intro hr
    cases hr with
    | stackOverflow hsp => exact ⟨⟨_, rfl⟩, hsp⟩
  · rintro ⟨⟨nnn, rfl⟩, hsp⟩
    exact .stackOverflow hsp
  · intro hr
    cases hr with
    | stackUnderflow hsp => exact ⟨rfl, hsp⟩
  · rintro ⟨rfl, hsp⟩
    exact .stackUnderflow hsp

theorem tag_of_not_fits {i : Instr} {a : Nat} (h : ¬ AccessFits a (accessLen i)) :
    i.tag ∈ [OpcodeTag.DRW, .LD_B, .ST_REGS, .LD_REGS] := by
  cases i with
  | drw x y n | ldB x | stRegs x | ldRegs x => simp [Instr.tag]
  | _ => exact absurd (.inl rfl) h

/-- Settles O42: the causes of `Raises`, and no refusal at a depth that the stack can have. -/
theorem onlyTheseInstructionsFail : Obligations.OnlyTheseInstructionsFail := by
  intro i s
  refine ⟨fun f h => ?_, exec_ne_refused⟩
  cases exec_eq_fault_iff.1 h with
  | stackOverflow hsp => exact .inl ⟨rfl, rfl⟩
  | stackUnderflow hsp => exact .inr (.inl ⟨rfl, rfl⟩)
  | noKeyWait hmode => exact .inr (.inr (.inl ⟨rfl, hmode, rfl⟩))
  | outOfRange hfit => exact .inr (.inr (.inr ⟨tag_of_not_fits hfit, rfl⟩))

/-! ### Errors of a STEP -/

theorem fetchDecode_of_fetch_error {s : State} {f : Fault} (h : fetch s = .error f) : fetchDecode s = .error f := by
  rw [fetchDecode, h]

theorem fetchDecode_of_illegal {s : State} {w : Word} (h : fetch s = .ok w) (hw : decodeWord? w = none) :
    fetchDecode s = .error (.unknownOpcode w) := by
  simp only [fetchDecode, h, hw]

theorem fetchDecode_of_decoded {s : State} {w : Word} {i : Instr} (h : fetch s = .ok w) (hw : decodeWord? w = some i) :
    fetchDecode s = .ok i := by
  simp only [fetchDecode, h, hw]

/-- Fetch and decode fail with a missing address at pc, or with an illegal word. -/
theorem fetchDecode_eq_error {s : State} {f : Fault} (h : fetchDecode s = .error f) :
    f = .memoryOutOfBounds (reportedAddress s.pc.toNat) ∨ ∃ w, f = .unknownOpcode w := by
  by_cases hpc : s.pc.toNat + 1 < 4096
  · cases hw : decodeWord? (wordOfBytes (readByte s.mem s.pc.toNat) (readByte s.mem (s.pc.toNat + 1))) with
    | none =>
      rw [fetchDecode_of_illegal (fetch_of_fits hpc) hw] at h
      cases h
      exact .inr ⟨_, rfl⟩
    | some i =>
      rw [fetchDecode_of_decoded (fetch_of_fits hpc) hw] at h
      cases h
  · rw [fetchDecode_of_fetch_error (fetch_of_not_fits (by omega))] at h
    cases h
    exact .inl rfl

/-- A STEP ends in an error of fetch and decode, or of the instruction. -/
theorem instrStep_eq_fault_iff {s : State} {f : Fault} :
    instrStep s = .fault f ↔ fetchDecode s = .error f ∨ ∃ i, fetchDecode s = .ok i ∧ Raises s i f := by
  cases h : fetchDecode s with
  | error g => simp [instrStep_of_error h]
  | ok i => simp [instrStep_of_ok h, exec_eq_fault_iff]

/-- Settles O38: pc names the smallest missing address, or the one after the last that exists. -/
theorem fetchOutOfRangeFaults : Obligations.FetchOutOfRangeFaults := by
  intro s
  have hfault : 4095 ≤ s.pc.toNat → instrStep s = .fault (.memoryOutOfBounds (reportedAddress s.pc.toNat)) :=
    fun h => instrStep_of_error (fetchDecode_of_fetch_error (fetch_of_not_fits h))
  refine ⟨fun h => ?_, fun h => ?_⟩
  · rw [hfault (by omega), reportedAddress, if_pos h]
  · rw [hfault (by omega), reportedAddress, if_neg (by omega)]

theorem reportedAddress_range (a : Word) :
    4096 ≤ reportedAddress a.toNat ∧ reportedAddress a.toNat ≤ 65535 ∧
      (reportedAddress a.toNat = 4096 ∨ reportedAddress a.toNat = a.toNat) := by
  have := a.isLt
  unfold reportedAddress
  split <;> omega

/-- Settles O43: the fetch reports from pc, an instruction from I. -/
theorem reportedAddressRange : Obligations.ReportedAddressRange := by
  intro s a h
  rcases instrStep_eq_fault_iff.1 h with h | ⟨i, -, hr⟩
  · rcases fetchDecode_eq_error h with h | ⟨w, h⟩ <;> cases h
    obtain ⟨hlo, hhi, h⟩ := reportedAddress_range s.pc
    exact ⟨hlo, hhi, h.imp_right .inl⟩
  · cases hr
    obtain ⟨hlo, hhi, h⟩ := reportedAddress_range s.i
    exact ⟨hlo, hhi, h.imp_right .inr⟩

/-! ### Errors persist -/

theorem Raises.congr {s t : State} {i : Instr} {f : Fault} (h : Raises s i f) (hi : t.i = s.i) (hsp : t.sp = s.sp)
    (hmode : t.keywaitMode = s.keywaitMode) : Raises t i f := by
  cases h with
  | stackOverflow h => exact .stackOverflow (hsp ▸ h)
  | stackUnderflow h => exact .stackUnderflow (hsp ▸ h)
  | noKeyWait h => exact .noKeyWait (hmode ▸ h)
  | outOfRange h => rw [← hi] at h ⊢; exact .outOfRange h

/-- The five pieces of state that decide whether a STEP ends in an error, and in which. -/
theorem instrStep_fault_congr {s t : State} {f : Fault} (h : instrStep s = .fault f) (hpc : t.pc = s.pc)
    (hmem : t.mem = s.mem) (hi : t.i = s.i) (hsp : t.sp = s.sp) (hmode : t.keywaitMode = s.keywaitMode) :
    instrStep t = .fault f := by
  rw [instrStep_eq_fault_iff, fetchDecode_congr hpc hmem]
  refine (instrStep_eq_fault_iff.1 h).imp_right ?_
  rintro ⟨i, hfetch, hr⟩
  exact ⟨i, hfetch, hr.congr hi hsp hmode⟩

theorem instrStepWith_of_fault {s : State} {f : Fault} (h : instrStep s = .fault f) (rnd : Byte) :
    instrStepWith rnd s = .fault f := by
  have hstep : instrStep { s with rndSupply := rnd :: s.rndSupply } = .fault f := instrStep_fault_congr h rfl rfl rfl rfl rfl
  rw [instrStepWith, hstep]

theorem performAll_keeps_fault {f : Fault} (ops : List HostOp) (hops : ∀ op ∈ ops, op = .tick ∨ ∃ k b, op = .keyWrite k b)
    (s : State) (h : instrStep s = .fault f) : ∃ t, performAll ops s = .next t ∧ instrStep t = .fault f := by
  induction ops generalizing s with
  | nil => exact ⟨s, rfl, h⟩
  | cons op ops ih =>
    obtain ⟨hop, hrest⟩ := List.forall_mem_cons.1 hops
    rcases hop with rfl | ⟨k, b, rfl⟩
    · exact ih hrest (tick s) (instrStep_fault_congr h rfl rfl rfl rfl rfl)
    · exact ih hrest (keyWrite k b s) (instrStep_fault_congr h rfl rfl rfl rfl rfl)

/-- A driver that only steps goes on in the same state after an error. -/
theorem runOn_of_fault {s : State} {f : Fault} (h : instrStep s = .fault f) (hs : s.script = []) (hd : s.driver = .stepping)
    (k : Nat) : runOn k s = s := by
  induction k with
  | zero => rfl
  | succ k ih => rw [runOn, step_of_stepping hs hd, h, afterError_of_stepping hs hd]; exact ih

/-- Settles O44: TICK and KEYWRITE touch none of the five pieces of state that decide the error, nor does a random byte. -/
theorem errorsPersist : Obligations.ErrorsPersist := by
  intro s f h ops hops
  obtain ⟨t, ht, hfault⟩ := performAll_keeps_fault ops hops s h
  exact ⟨t, ht, hfault, instrStepWith_of_fault hfault, runOn_of_fault hfault⟩

end Sys2Proof.Machine

/-!
PROOFS. RESET and the two host reads (70_reset_and_hazards.md R210, R211, 10_state.md R38, R39), and the invariant: RESET
meets it and every operation keeps it. It speaks of memory, SP, the stack and pc only, so an update of anything else keeps
it at once.
-/
namespace Sys2Proof.Machine

/-! ### RESET -/

@[simp] theorem perform_reset (s : State) : perform .reset s = .next (resetState s) := rfl

theorem resetByte_of_ge {a : Nat} (h : 80 ≤ a) : resetByte a = 0 :=
  List.getD_eq_default _ _ h

theorem readReg_reset (r : RegNum) : readReg State.reset r = 0 := Vector.getElem_replicate _

theorem keyDown_reset (k : Nibble) : keyDown State.reset k = false := Vector.getElem_replicate _

theorem stack_reset (j : Fin 16) : State.reset.stack[j.val]'j.isLt = 0 := Vector.getElem_replicate _

/-- Settles O55: every field of the core is that of `State.reset`, the rest is taken over. -/
theorem resetClearsTheCore : Obligations.ResetClearsTheCore := by
  intro s
  refine ⟨_, perform_reset s, rfl, rfl, rfl, fun r => congrArg _ (readReg_reset r), fun j => congrArg _ (stack_reset j), rfl,
    rfl, pixel_replicate false, keyDown_reset, ?_, ?_, ?_, ?_, fun a ha => congrArg _ (resetByte_of_ge ha), rfl, rfl, rfl,
    rfl, rfl⟩ <;> rfl

/-! ### What the host reads -/

/-- FBREAD lists the framebuffer as one vector of 32 * 64 pixels, row by row. -/
theorem fbRead_eq_flatten (s : State) : fbRead s = s.fb.flatten.toList := by
  rw [fbRead, List.flatMap_def]
  obtain ⟨⟨rows⟩, hsize⟩ := s.fb
  simp only [Vector.flatten_mk, List.map_toArray, Array.flatten_toArray, List.map_map, Vector.toList_mk]
  rfl

/-- Settles O53: pixel (row, col) stands at place 64 * row + col. -/
theorem hostReadsChangeNothing : Obligations.HostReadsChangeNothing := by
  intro s
  refine ⟨rfl, ?_, fun row col => ?_, rfl, rfl⟩
  · rw [fbRead_eq_flatten, Vector.length_toList]
  · have hrow : (64 * row.val + col.val) / 64 = row.val := by omega
    have hcol : (64 * row.val + col.val) % 64 = col.val := by omega
    rw [fbRead_eq_flatten, Vector.getElem?_toList, Vector.getElem?_eq_getElem (by omega), Vector.getElem_flatten]
    simp only [hrow, hcol, pixel]

/-! ### The invariant -/

/-- The invariant depends on memory, SP, the stack and pc alone. -/
theorem State.Inv.congr {s t : State} (h : s.Inv) (hmem : t.mem = s.mem) (hsp : t.sp = s.sp) (hstack : t.stack = s.stack)
    (hpc : t.pc = s.pc) : t.Inv where
  memCanonical := hmem ▸ h.memCanonical
  spRange := hsp ▸ h.spRange
  liveEntries := by rw [hsp, hstack]; exact h.liveEntries
  pcRange := hpc ▸ h.pcRange

/-- Settles O57: no memory is written and no entry is live. -/
theorem resetMeetsTheInvariant : Obligations.ResetMeetsTheInvariant where
  memCanonical := Memory.wf_nil
  spRange := Nat.zero_le 16
  liveEntries j hj := absurd hj (Nat.not_lt_zero j.val)
  pcRange := by decide

/-! ### What an instruction does to memory and pc -/

theorem mem_wf_of_exec {i : Instr} {s t : State} (hwf : s.mem.wf = true) (h : exec i s = .next t) : t.mem.wf = true := by
  cases i with
  | ldB x =>
    obtain ⟨hfit, rfl⟩ := exec_ldB_eq_next h
    exact Memory.wf_writeBytes hwf _ hfit
  | stRegs x =>
    obtain ⟨hfit, rfl⟩ := exec_stRegs_eq_next h
    exact Memory.wf_writeBytes hwf _ (by rwa [regBlock_length])
  | call nnn =>
    obtain ⟨hs, rfl⟩ := execCall_eq_next h
    exact hwf
  | ret =>
    obtain ⟨j, hj, hs, rfl⟩ := execRet_eq_next h
    exact hwf
  | ldVxK x => obtain ⟨-, ⟨k, -, rfl⟩ | ⟨-, rfl⟩⟩ := execLdVxK_eq_next h <;> exact hwf
  | drw x y n =>
    obtain ⟨-, rfl⟩ := exec_drw_eq_next h
    exact hwf
  | ldRegs x =>
    obtain rfl := exec_ldRegs_eq_next h
    simpa using hwf
  | _ => cases h; simpa using hwf

theorem pc_add_le {pc k : Word} (hpc : pc.toNat < 4095) (hk : k.toNat ≤ 4) : (pc + k).toNat ≤ 0x10FE := by
  rw [BitVec.toNat_add_of_lt] <;> omega

/-- Where an instruction other than RET goes from a pc it was fetched at: on, past the next one, or to a target. -/
theorem pc_le_of_exec {i : Instr} {s t : State} (hpc : s.pc.toNat < 4095) (hi : i ≠ .ret) (h : exec i s = .next t) :
    t.pc.toNat ≤ 0x10FE := by
  have hnext : (s.pc + 2).toNat ≤ 0x10FE := pc_add_le hpc (by decide)
  have hskip : ∀ c, (skipIf c s).pc.toNat ≤ 0x10FE := by
    rintro (_ | _)
    · exact hnext
    · exact pc_add_le hpc (by decide)
  have htarget : ∀ nnn : Addr12, (addrOf nnn).toNat < 4096 := fun nnn => (addrOf_toNat nnn).trans_lt nnn.isLt
  cases i with
  | ret => exact absurd rfl hi
  | jp nnn =>
    cases h
    exact (htarget nnn).le.trans (by decide)
  | call nnn =>
    obtain ⟨hs, rfl⟩ := execCall_eq_next h
    exact (htarget nnn).le.trans (by decide)
  | jpV0 nnn =>
    obtain ⟨u, hu, hsum, -⟩ := offsetJumpAddsV0 nnn s
    obtain rfl : u = t := Host.Outcome.next.inj (hu.symm.trans h)
    have := nnn.isLt
    have := (readReg s 0).isLt
    omega
  | seImm x nn | sneImm x nn => cases h; exact hskip _
  | seReg x y z | sneReg x y z => cases h; exact hskip _
  | skp x | sknp x => cases h; exact hskip _
  | ldVxK x =>
    obtain ⟨-, ⟨k, -, rfl⟩ | ⟨-, rfl⟩⟩ := execLdVxK_eq_next h
    · exact hnext
    · omega
  | drw x y n =>
    obtain ⟨-, rfl⟩ := exec_drw_eq_next h
    exact hnext
  | ldB x =>
    obtain ⟨-, rfl⟩ := exec_ldB_eq_next h
    exact hnext
  | stRegs x =>
    obtain ⟨-, rfl⟩ := exec_stRegs_eq_next h
    exact hnext
  | ldRegs x =>
    obtain rfl := exec_ldRegs_eq_next h
    simpa using hnext
  | _ => cases h; simpa using hnext

/-! ### Every operation keeps the invariant -/

/-- CALL: the entry it pushes is a pc that an instruction was fetched at. -/
theorem inv_of_execCall {nnn : Addr12} {s t : State} (hinv : s.Inv) (hpc : s.pc.toNat < 4095)
    (h : execCall nnn s = .next t) : t.Inv := by
  have hmem : t.mem.wf = true := mem_wf_of_exec (i := .call nnn) hinv.memCanonical h
  have hpc' : t.pc.toNat ≤ 0x10FE := pc_le_of_exec (i := .call nnn) hpc nofun h
  obtain ⟨hs, rfl⟩ := execCall_eq_next h
  refine ⟨hmem, ?_, fun j hj => ?_, hpc'⟩
  · rw [setPc_sp, sp_add_one_toNat hs]
    exact hs
  · rw [setPc_sp, sp_add_one_toNat hs] at hj
    simp only [setPc_stack, Vector.getElem_set]
    split
    · exact Nat.le_of_lt_succ hpc
    · next hne => exact hinv.liveEntries j (Nat.lt_of_le_of_ne (Nat.le_of_lt_succ hj) (Ne.symm hne))

/-- RET: the popped entry was live, so its address plus 2 is at most 0x1000. -/
theorem inv_of_execRet {s t : State} (hinv : s.Inv) (h : execRet s = .next t) : t.Inv := by
  obtain ⟨j, hj, hs, rfl⟩ := execRet_eq_next h
  have hentry := hinv.liveEntries ⟨j, hj⟩ (hs ▸ Nat.lt_succ_self j)
  have hsp : (s.sp - 1).toNat = j := sp_sub_one_toNat hs
  refine ⟨hinv.memCanonical, ?_, fun k hk => hinv.liveEntries k ?_, pc_add_le (Nat.lt_of_le_of_lt hentry ?_) ?_⟩
  · exact hsp.trans_le (Nat.le_of_lt hj)
  · exact hs ▸ Nat.lt_succ_of_lt (hsp ▸ hk)
  · decide
  · decide

theorem inv_of_exec {i : Instr} {s t : State} (hinv : s.Inv) (hpc : s.pc.toNat < 4095) (h : exec i s = .next t) :
    t.Inv := by
  rcases footprint_stack i s with hf | rfl | ⟨nnn, rfl⟩
  · obtain ⟨hsp, hstack⟩ := (everyInstructionKeepsItsFrame i s t h).stack hf
    have hi : i ≠ .ret := by rintro rfl; cases hf
    exact ⟨mem_wf_of_exec hinv.memCanonical h, hsp ▸ hinv.spRange, by rw [hsp, hstack]; exact hinv.liveEntries,
      pc_le_of_exec hpc hi h⟩
  · exact inv_of_execRet hinv h
  · exact inv_of_execCall hinv hpc h

theorem inv_of_instrStep {s t : State} (hinv : s.Inv) (h : instrStep s = .next t) : t.Inv := by
  obtain ⟨i, hi, he⟩ := orRaise_eq_next h
  exact inv_of_exec hinv (pc_of_fetchDecode hi) he

theorem instrStepWith_eq_next {rnd : Byte} {s t : State} (h : instrStepWith rnd s = .next t) :
    ∃ u, instrStep { s with rndSupply := rnd :: s.rndSupply } = .next u ∧ t = { u with rndSupply := s.rndSupply } := by
  unfold instrStepWith at h
  split at h <;> cases h
  next u hu => exact ⟨u, hu, rfl⟩

theorem inv_of_load {bytes : List Byte} {s t : State} (hinv : s.Inv) (h : perform (.load bytes) s = .next t) : t.Inv := by
  by_cases hlen : bytes.length ≤ 3584
  · rw [perform_load_of_fits hlen] at h
    cases h
    exact ⟨Memory.wf_writeBytes hinv.memCanonical bytes (by omega), hinv.spRange, hinv.liveEntries, hinv.pcRange⟩
  · rw [perform_load_of_too_long (Nat.lt_of_not_le hlen)] at h
    cases h

theorem inv_of_perform {op : HostOp} {s t : State} (hinv : s.Inv) (h : perform op s = .next t) : t.Inv := by
  cases op with
  | reset =>
    cases h
    exact resetMeetsTheInvariant.congr rfl rfl rfl rfl
  | load bytes => exact inv_of_load hinv h
  | step rnd =>
    obtain ⟨u, hu, rfl⟩ := instrStepWith_eq_next h
    have hs : State.Inv { s with rndSupply := rnd :: s.rndSupply } := hinv.congr rfl rfl rfl rfl
    exact (inv_of_instrStep hs hu).congr rfl rfl rfl rfl
  | tick | keyWrite k b | fbRead | timerRead =>
    cases h
    exact hinv.congr rfl rfl rfl rfl

/-- Settles O58: a step performs one operation, and what tells it which one is not part of the invariant. -/
theorem stepKeepsTheInvariant : Obligations.StepKeepsTheInvariant := by
  intro s t hinv h
  cases hs : s.script with
  | cons op rest =>
    rw [step_of_script hs] at h
    refine inv_of_perform ?_ h
    exact hinv.congr rfl rfl rfl rfl
  | nil =>
    cases hd : s.driver with
    | stepping =>
      rw [step_of_stepping hs hd] at h
      exact inv_of_instrStep hinv h
    | free n =>
      rw [step_of_free hs hd] at h
      refine inv_of_perform ?_ h
      exact hinv.congr rfl rfl rfl rfl

end Sys2Proof.Machine

/-!
PROOFS. What the machine does not observe: the sound timer (48_timers.md) and, but for RND, the random source. A change of
ST and of the laid-out random bytes passes through every instruction that does not touch them, so two runs that start alike
but for ST stay so, and a STEP(rnd) of an instruction other than RND is its execution. Then STEP itself (30_encoding.md R80),
the driver's order (10_state.md R34) and the parked program (70_reset_and_hazards.md R217).
-/
namespace Sys2Proof.Machine

/-! ### A change of what is not read -/

/-- The next state changed by `g`; an error or a refusal as it is. -/
def mapNext (g : State → State) : Result → Result
  | .next t => .next (g t)
  | .fault f => .fault f
  | .refused r => .refused r

@[simp] theorem mapNext_next (g : State → State) (t : State) : mapNext g (.next t) = .next (g t) := rfl

@[simp] theorem mapNext_fault (g : State → State) (f : Fault) : mapNext g (.fault f) = .fault f := rfl

@[simp] theorem mapNext_refused (g : State → State) (r : Refusal) : mapNext g (.refused r) = .refused r := rfl

/-- `s` with ST changed by `f` and the laid-out random bytes by `g`. -/
def retune (f : Byte → Byte) (g : List Byte → List Byte) (s : State) : State :=
  { s with st := f s.st, rndSupply := g s.rndSupply }

/-- `s` with the random bytes `bs` laid out. -/
def setSupply (bs : List Byte) (s : State) : State := { s with rndSupply := bs }

section
variable (f : Byte → Byte) (g : List Byte → List Byte) (s : State)

theorem skipIf_retune (c : Bool) : skipIf c (retune f g s) = retune f g (skipIf c s) := by cases c <;> rfl

theorem writeRegs_retune (k : Nat) (bs : List Byte) : writeRegs k bs (retune f g s) = retune f g (writeRegs k bs s) := by
  induction bs generalizing k s with
  | nil => rfl
  | cons b bs ih => exact ih (writeReg (BitVec.ofNat 4 k) b s) (k + 1)

theorem execCall_retune (nnn : Addr12) : execCall nnn (retune f g s) = mapNext (retune f g) (execCall nnn s) := by
  rcases Nat.lt_trichotomy s.sp.toNat 16 with hlt | hfull | hgt
  · rw [execCall_of_lt nnn hlt, execCall_of_lt nnn (s := retune f g s) hlt]; rfl
  · rw [execCall_of_full nnn hfull, execCall_of_full nnn (s := retune f g s) hfull]; rfl
  · rw [execCall_of_gt nnn hgt, execCall_of_gt nnn (s := retune f g s) hgt]; rfl

theorem execRet_retune : execRet (retune f g s) = mapNext (retune f g) (execRet s) := by
  rcases Nat.lt_or_ge 16 s.sp.toNat with hgt | hle
  · rw [execRet_of_gt hgt, execRet_of_gt (s := retune f g s) hgt]; rfl
  · rcases Nat.eq_zero_or_eq_succ_pred s.sp.toNat with hzero | hpos
    · rw [execRet_of_zero hzero, execRet_of_zero (s := retune f g s) hzero]; rfl
    · have hj : s.sp.toNat.pred < 16 := by omega
      rw [execRet_of_pos hj hpos, execRet_of_pos (s := retune f g s) hj hpos]; rfl

theorem execLdVxK_retune (x : RegNum) : execLdVxK x (retune f g s) = mapNext (retune f g) (execLdVxK x s) := by
  cases hmode : s.keywaitMode with
  | unimplemented =>
    rw [execLdVxK_of_unimplemented x hmode, execLdVxK_of_unimplemented x (s := retune f g s) hmode]; rfl
  | wait =>
    cases hkey : lowestKeyDown s with
    | none => rw [execLdVxK_of_no_key x hmode hkey, execLdVxK_of_no_key x (s := retune f g s) hmode hkey]; rfl
    | some k => rw [execLdVxK_of_key x hmode hkey, execLdVxK_of_key x (s := retune f g s) hmode hkey]; rfl

/-- An instruction other than RND and LD ST neither reads nor writes what is changed. -/
theorem exec_retune {i : Instr} (hst : i.tag ≠ .LD_ST_VX) (hrnd : i.tag ≠ .RND) :
    exec i (retune f g s) = mapNext (retune f g) (exec i s) := by
  cases i with
  | ldStVx x => exact absurd rfl hst
  | rnd x nn => exact absurd rfl hrnd
  | call nnn => exact execCall_retune f g s nnn
  | ret => exact execRet_retune f g s
  | ldVxK x => exact execLdVxK_retune f g s x
  | seImm x nn | sneImm x nn => exact congrArg _ (skipIf_retune f g s _)
  | seReg x y z | sneReg x y z => exact congrArg _ (skipIf_retune f g s _)
  | skp x | sknp x => exact congrArg _ (skipIf_retune f g s _)
  | drw x y n => rw [exec_drw, exec_drw, execDrw_eq, execDrw_eq, apply_ite (mapNext _)]; rfl
  | ldB x => rw [exec_ldB, exec_ldB, execLdB_eq, execLdB_eq, apply_ite (mapNext _)]; rfl
  | stRegs x => rw [exec_stRegs, exec_stRegs, execStRegs_eq, execStRegs_eq, apply_ite (mapNext _)]; rfl
  | ldRegs x =>
    rw [exec_ldRegs, exec_ldRegs, execLdRegs_eq, execLdRegs_eq, apply_ite (mapNext _), writeRegs_retune]; rfl
  | _ => rfl

end

/-! ### The sound timer -/

theorem consumeRandom_setSound (b : Byte) (s : State) : consumeRandom (setSound b s) = setSound b (consumeRandom s) := by
  cases h : s.rndSupply with
  | nil => rw [consumeRandom_of_nil h, consumeRandom_of_nil (s := setSound b s) h]; rfl
  | cons c bs => rw [consumeRandom_of_cons h, consumeRandom_of_cons (s := setSound b s) h]; rfl

/-- Two executions that start alike but for ST end alike but for ST. -/
theorem exec_setSound (i : Instr) (b : Byte) (s : State) :
    ∃ c, exec i (setSound b s) = mapNext (setSound c) (exec i s) := by
  by_cases hst : i.tag = .LD_ST_VX
  · cases i with
    | ldStVx x => exact ⟨readReg s x, rfl⟩
    | _ => cases hst
  · by_cases hrnd : i.tag = .RND
    · cases i with
      | rnd x nn =>
        refine ⟨b, ?_⟩
        rw [exec_rnd, exec_rnd, consumeRandom_setSound]
        rfl
      | _ => cases hrnd
    · exact ⟨b, exec_retune (fun _ => b) id s hst hrnd⟩

theorem instrStep_setSound (b : Byte) (s : State) : ∃ c, instrStep (setSound b s) = mapNext (setSound c) (instrStep s) := by
  have hfetch : fetchDecode (setSound b s) = fetchDecode s := fetchDecode_congr rfl rfl
  cases h : fetchDecode s with
  | error f => exact ⟨b, by rw [instrStep_of_error h, instrStep_of_error (hfetch.trans h)]; rfl⟩
  | ok i => rw [instrStep_of_ok h, instrStep_of_ok (hfetch.trans h)]; exact exec_setSound i b s

/-- A STEP(rnd) lays out its byte, steps, and puts the source back. -/
theorem instrStepWith_eq_mapNext (rnd : Byte) (s : State) :
    instrStepWith rnd s = mapNext (setSupply s.rndSupply) (instrStep (setSupply (rnd :: s.rndSupply) s)) := by
  unfold instrStepWith setSupply
  split <;> next h => rw [h]; rfl

theorem mapNext_setSupply_setSound (bs : List Byte) (c : Byte) (r : Result) :
    mapNext (setSupply bs) (mapNext (setSound c) r) = mapNext (setSound c) (mapNext (setSupply bs) r) := by
  cases r <;> rfl

theorem instrStepWith_setSound (rnd b : Byte) (s : State) :
    ∃ c, instrStepWith rnd (setSound b s) = mapNext (setSound c) (instrStepWith rnd s) := by
  obtain ⟨c, hc⟩ := instrStep_setSound b (setSupply (rnd :: s.rndSupply) s)
  refine ⟨c, ?_⟩
  rw [instrStepWith_eq_mapNext, instrStepWith_eq_mapNext, ← mapNext_setSupply_setSound, ← hc]
  rfl

theorem perform_setSound (op : HostOp) (b : Byte) (s : State) :
    ∃ c, perform op (setSound b s) = mapNext (setSound c) (perform op s) := by
  cases op with
  | reset => exact ⟨State.reset.st, rfl⟩
  | load bytes =>
    refine ⟨b, ?_⟩
    by_cases hlen : bytes.length ≤ 3584
    · rw [perform_load_of_fits hlen, perform_load_of_fits hlen]; rfl
    · rw [perform_load_of_too_long (Nat.lt_of_not_le hlen), perform_load_of_too_long (Nat.lt_of_not_le hlen)]; rfl
  | step rnd => exact instrStepWith_setSound rnd b s
  | tick => exact ⟨countDown b, rfl⟩
  | keyWrite k v => exact ⟨b, rfl⟩
  | fbRead | timerRead => exact ⟨b, rfl⟩

theorem step_setSound (b : Byte) (s : State) : ∃ c, step (setSound b s) = mapNext (setSound c) (step s) := by
  cases hs : s.script with
  | cons op rest =>
    rw [step_of_script hs, step_of_script (s := setSound b s) hs]
    exact perform_setSound op b { s with script := rest }
  | nil =>
    cases hd : s.driver with
    | stepping =>
      rw [step_of_stepping hs hd, step_of_stepping (s := setSound b s) hs hd]
      exact instrStep_setSound b s
    | free n =>
      rw [step_of_free hs hd, step_of_free (s := setSound b s) hs hd]
      exact perform_setSound _ b { s with driver := .free (n + 1) }

/-! ### Runs -/

theorem run_succ_of_next {M : Host.Core} {s t : M.State} (h : M.step s = .next t) (k : Nat) :
    M.run (k + 1) s = M.run k t := by
  rw [Host.Core.run, h]

theorem run_succ_of_fault {M : Host.Core} {s : M.State} {f : M.Fault} (h : M.step s = .fault f) (k : Nat) :
    M.run (k + 1) s = .fault f := by
  rw [Host.Core.run, h]

theorem run_succ_of_refused {M : Host.Core} {s : M.State} {r : M.Refusal} (h : M.step s = .refused r) (k : Nat) :
    M.run (k + 1) s = .refused r := by
  rw [Host.Core.run, h]

/-- Two runs that start alike but for ST end alike but for ST. -/
theorem run_setSound (k : Nat) (b : Byte) (s : State) :
    ∃ c, core.run k (setSound b s) = mapNext (setSound c) (core.run k s) := by
  induction k generalizing b s with
  | zero => exact ⟨b, rfl⟩
  | succ k ih =>
    obtain ⟨c, hc⟩ := step_setSound b s
    cases h : step s with
    | next t =>
      rw [h] at hc
      rw [run_succ_of_next (M := core) h, run_succ_of_next (M := core) hc]
      exact ih c t
    | fault f =>
      rw [h] at hc
      rw [run_succ_of_fault (M := core) h, run_succ_of_fault (M := core) hc]
      exact ⟨c, rfl⟩
    | refused r =>
      rw [h] at hc
      rw [run_succ_of_refused (M := core) h, run_succ_of_refused (M := core) hc]
      exact ⟨c, rfl⟩

/-- Settles O59: the outcome of the second run is that of the first, but for ST. -/
theorem soundTimerIsUnobservable : Obligations.SoundTimerIsUnobservable := by
  intro k b s
  obtain ⟨c, hc⟩ := run_setSound k b s
  refine ⟨fun t h => ⟨c, ?_⟩, fun f h => ?_, fun r h => ?_⟩ <;> rw [h] at hc <;> exact hc

/-! ### STEP and the driver's order -/

/-- Settles O50: the three outcomes of fetch and decode, for a driver that only steps. -/
theorem stepRunsTheDecodedInstruction : Obligations.StepRunsTheDecodedInstruction := by
  intro s hs hd
  rw [step_of_stepping hs hd]
  refine ⟨fun f h => ?_, fun w h hw => ?_, fun w i h hw => ?_⟩
  · exact instrStep_of_error (fetchDecode_of_fetch_error h)
  · exact instrStep_of_error (fetchDecode_of_illegal h ((decodeWord_error_iff w _).1 hw).1)
  · exact instrStep_of_ok (fetchDecode_of_decoded h ((decodeWord_ok_iff w i).1 hw))

theorem exec_setSupply {i : Instr} (hi : i.tag ≠ .RND) (bs : List Byte) (s : State) :
    exec i (setSupply bs s) = mapNext (setSupply bs) (exec i s) := by
  by_cases hst : i.tag = .LD_ST_VX
  · cases i with
    | ldStVx x => rfl
    | _ => cases hst
  · exact exec_retune id (fun _ => bs) s hst hi

/-- Putting back the source after an instruction that takes no byte of it changes nothing. -/
theorem mapNext_setSupply_exec {i : Instr} (hi : i.tag ≠ .RND) (s : State) :
    mapNext (setSupply s.rndSupply) (exec i s) = exec i s := by
  cases h : exec i s with
  | next t =>
    obtain ⟨hsupply, -⟩ := (everyInstructionKeepsItsFrame i s t h).random (footprint_random hi s)
    rw [mapNext_next, setSupply, ← hsupply]
  | fault f => rfl
  | refused r => rfl

theorem mapNext_setSupply_setSupply (bs bs' : List Byte) (r : Result) :
    mapNext (setSupply bs) (mapNext (setSupply bs') r) = mapNext (setSupply bs) r := by
  cases r <;> rfl

/-- A STEP(rnd) of any instruction but RND is its execution. -/
theorem instrStepWith_of_ok {s : State} {i : Instr} (rnd : Byte) (h : fetchDecode s = .ok i) (hi : i.tag ≠ .RND) :
    instrStepWith rnd s = exec i s := by
  have hfetch : fetchDecode (setSupply (rnd :: s.rndSupply) s) = .ok i := (fetchDecode_congr rfl rfl).trans h
  rw [instrStepWith_eq_mapNext, instrStep_of_ok hfetch, exec_setSupply hi, mapNext_setSupply_setSupply,
    mapNext_setSupply_exec hi]

/-- Settles O51: the driver's list, then its own order; a byte laid out for one STEP is seen by RND only. -/
theorem linedUpOperationComesFirst : Obligations.LinedUpOperationComesFirst :=
  ⟨fun _ _ _ h => step_of_script h, fun _ _ h hd => step_of_free h hd, fun _ rnd _ h hi => instrStepWith_of_ok rnd h hi⟩

/-! ### A parked program -/

theorem Parked.congr {s t : State} (h : Parked s) (hpc : t.pc = s.pc) (hmem : t.mem = s.mem) : Parked t := by
  obtain ⟨nnn, hfetch, hs⟩ := h
  exact ⟨nnn, (fetchDecode_congr hpc hmem).trans hfetch, hpc.trans hs⟩

/-- The jump of a parked program goes to the pc it is at. -/
theorem exec_jp_of_parked {nnn : Addr12} {s : State} (h : s.pc = addrOf nnn) : exec (.jp nnn) s = .next s := by
  rw [exec_jp, ← h]
  rfl

theorem run_of_parked {s : State} (h : Parked s) (hs : s.script = []) (hd : s.driver = .stepping) (k : Nat) :
    core.run k s = .next s := by
  obtain ⟨nnn, hfetch, hpc⟩ := h
  have hstep : step s = .next s := by
    rw [step_of_stepping hs hd, instrStep_of_ok hfetch, exec_jp_of_parked hpc]
  induction k with
  | zero => rfl
  | succ k ih => rw [run_succ_of_next (M := core) hstep, ih]

/-- Settles O60: a parked program jumps to itself, and TICK and KEYWRITE leave pc and memory. -/
theorem parkedProgramStays : Obligations.ParkedProgramStays := by
  intro s k h
  refine ⟨fun hs hd => run_of_parked h hs hd k, fun rnd => ?_, ⟨tick s, perform_tick s, h.congr rfl rfl⟩,
    fun key b => ⟨keyWrite key b s, perform_keyWrite key b s, h.congr rfl rfl⟩⟩
  obtain ⟨nnn, hfetch, hpc⟩ := h
  exact (instrStepWith_of_ok rnd hfetch nofun).trans (exec_jp_of_parked hpc)

end Sys2Proof.Machine
